-- ==== Sys2Proof/Word.lean ====
section
/-! DEFINITION. The word types of the block (spec/00_scope.md R2, R9, R10, R14, R16; spec/30_encoding.md R81):
8-bit data, 16-bit address registers and instruction words, and the instruction's 4-bit and 12-bit fields.
Every one is unsigned (R17). -/

namespace Sys2Proof

/-- A 4-bit field `op[3:0]` (R81). -/
abbrev Nibble := BitVec 4

/-- The number of a general register: the 4-bit `x` or `y` field, so always a valid index (R23). -/
abbrev RegIdx := BitVec 4

/-- Registers, memory bytes, immediates and the timer are 8 bits wide (R2, R21, R28, R31). -/
abbrev Byte := BitVec 8

/-- The 12-bit address field `nnn` (R81). -/
abbrev Addr12 := BitVec 12

/-- `I`, `pc`, stack entries and instruction words are 16 bits wide (R10, R80). -/
abbrev Word := BitVec 16

end Sys2Proof
end

