-- ==== Sys2Proof/Machine/Flags.lean ====
section
/-! DEFINITION. Arithmetic and flag computations (spec/42_alu.md R130; spec/00_scope.md R17): exact on natural numbers,
then reduced modulo 256; the values VF takes. -/

namespace Sys2Proof.Machine

/-- `bool01(c)`: 1 if the condition holds, else 0 (R17). -/
def bool01 (c : Bool) : Byte :=
  if c then 1 else 0

/-- `(a + b) mod 256` (R130). -/
def add8 (a b : Byte) : Byte :=
  BitVec.ofNat 8 ((a.toNat + b.toNat) % 256)

/-- The carry: `a + b > 255` (R130, R136). -/
def carries (a b : Byte) : Bool :=
  a.toNat + b.toNat > 255

/-- `(a - b) mod 256`, which is `(a + 256 - b) mod 256` (R130). -/
def sub8 (a b : Byte) : Byte :=
  BitVec.ofNat 8 ((a.toNat + 256 - b.toNat) % 256)

/-- The borrow: `a < b` (R130, R137; 1 means borrow). -/
def borrows (a b : Byte) : Bool :=
  a.toNat < b.toNat

/-- `a >> 1`, a logical right shift (R130, R138). -/
def shr1 (a : Byte) : Byte :=
  a >>> 1

/-- The bit a right shift by one discards: `a & 1` (R130, R138). -/
def shiftedOut (a : Byte) : Bool :=
  a.getLsbD 0

/-- `(w + a) mod 65536`, the 16-bit add of a register to I (R161). -/
def addIndex (w : Word) (a : Byte) : Word :=
  BitVec.ofNat 16 ((w.toNat + a.toNat) % 65536)

end Sys2Proof.Machine
end

