-- ==== Sys2Proof/Syntax.lean ====
section
/-! DEFINITION. The instruction set: one constructor per row of spec/opcode_table.json, in the table's order
(spec/30_encoding.md R83). The operands are the fields the row's pattern names, each at the width R81 gives it. -/

namespace Sys2Proof

/-- The 21 instructions (R83). -/
inductive Instr where
  /-- `00E0`, CLS: clear the display (R180). -/
  | cls
  /-- `00EE`, RET: return from subroutine (R110). -/
  | ret
  /-- `1nnn`, JP nnn: jump (R111). -/
  | jp (nnn : Addr12)
  /-- `2nnn`, CALL nnn: call a subroutine (R112). -/
  | call (nnn : Addr12)
  /-- `3xkk`, SE Vx, kk: skip if equal (R113). -/
  | seImm (x : RegIdx) (kk : Byte)
  /-- `6xkk`, LD Vx, kk: load an immediate (R131). -/
  | ldImm (x : RegIdx) (kk : Byte)
  /-- `7xkk`, ADD Vx, kk: add an immediate, no flag (R132). -/
  | addImm (x : RegIdx) (kk : Byte)
  /-- `8xy0`, LD Vx, Vy: copy a register (R133). -/
  | ldReg (x y : RegIdx)
  /-- `8xy2`, AND Vx, Vy (R134). -/
  | andReg (x y : RegIdx)
  /-- `8xy3`, XOR Vx, Vy (R135). -/
  | xorReg (x y : RegIdx)
  /-- `8xy4`, ADD Vx, Vy: carry into VF (R136). -/
  | addReg (x y : RegIdx)
  /-- `8xy5`, SUB Vx, Vy: borrow into VF (R137). -/
  | sub (x y : RegIdx)
  /-- `8xy6`, SHR Vx, Vy: shifted-out bit into VF (R138). -/
  | shr (x y : RegIdx)
  /-- `Annn`, LD I, nnn (R160). -/
  | ldI (nnn : Addr12)
  /-- `Dxyn`, DRW Vx, Vy, n: draw a sprite of n rows (R181). -/
  | drw (x y : RegIdx) (n : Nibble)
  /-- `Ex9E`, SKP Vx: skip if the key is pressed (R200). -/
  | skp (x : RegIdx)
  /-- `ExA1`, SKNP Vx: skip if the key is not pressed (R201). -/
  | sknp (x : RegIdx)
  /-- `Fx07`, LD Vx, DT: read the timer (R202). -/
  | ldVDt (x : RegIdx)
  /-- `Fx15`, LD DT, Vx: set the timer (R203). -/
  | ldDtV (x : RegIdx)
  /-- `Fx1E`, ADD I, Vx (R161). -/
  | addI (x : RegIdx)
  /-- `Fx65`, LD Vx, [I]: load V0..Vx from memory (R162). -/
  | ldVMem (x : RegIdx)
  deriving DecidableEq, Repr

end Sys2Proof
end

