-- ==== Sys2Proof/WellFormed.lean ====
section
/-! DEFINITION. Well-formedness of an instruction: every operand fits the field its pattern gives it
(spec/30_encoding.md R81, R82; spec/10_state.md R23). The operand types of `Instr` have exactly the fields' widths, so
every `Instr` passes; the checks refuse an operand written as a plain number that fits no field. -/

namespace Sys2Proof

/-- An operand as a plain number, with the field it goes into (R81). -/
inductive Operand where
  /-- The `x` or `y` field: a register number. -/
  | reg (v : Nat)
  /-- The `kk` field: an 8-bit immediate. -/
  | imm8 (v : Nat)
  /-- The `nnn` field: a 12-bit address. -/
  | addr12 (v : Nat)
  /-- The `n` field: a row count. -/
  | rows (v : Nat)
  deriving DecidableEq, Repr

/-- Whether an operand fits its field (R82: `x`, `y`, `n` 0..15; `kk` 0..255; `nnn` 0..0xFFF). -/
def Operand.fits : Operand → Bool
  | .reg v => v < 16
  | .imm8 v => v < 256
  | .addr12 v => v < 4096
  | .rows v => v < 16

/-- The operands of an instruction, in the order its pattern names them. -/
def Instr.operands : Instr → List Operand
  | .cls => []
  | .ret => []
  | .jp nnn => [.addr12 nnn.toNat]
  | .call nnn => [.addr12 nnn.toNat]
  | .seImm x kk => [.reg x.toNat, .imm8 kk.toNat]
  | .ldImm x kk => [.reg x.toNat, .imm8 kk.toNat]
  | .addImm x kk => [.reg x.toNat, .imm8 kk.toNat]
  | .ldReg x y => [.reg x.toNat, .reg y.toNat]
  | .andReg x y => [.reg x.toNat, .reg y.toNat]
  | .xorReg x y => [.reg x.toNat, .reg y.toNat]
  | .addReg x y => [.reg x.toNat, .reg y.toNat]
  | .sub x y => [.reg x.toNat, .reg y.toNat]
  | .shr x y => [.reg x.toNat, .reg y.toNat]
  | .ldI nnn => [.addr12 nnn.toNat]
  | .drw x y n => [.reg x.toNat, .reg y.toNat, .rows n.toNat]
  | .skp x => [.reg x.toNat]
  | .sknp x => [.reg x.toNat]
  | .ldVDt x => [.reg x.toNat]
  | .ldDtV x => [.reg x.toNat]
  | .addI x => [.reg x.toNat]
  | .ldVMem x => [.reg x.toNat]

/-- An instruction is well formed when each of its operands fits its field. -/
def Instr.WellFormed (i : Instr) : Bool :=
  i.operands.all Operand.fits

end Sys2Proof
end

