-- ==== Sys2Proof/Decode.lean ====
section
/-! DEFINITION. Decoding and encoding (spec/30_encoding.md R80 to R87). `opcodeTable` is R83's table of masks and matches;
`decodeWord` is R84's `Decode`, total on every 16-bit word; `decodeBytes` is total on every list of bytes. `encode` writes
each instruction's word from the same table's patterns. -/

namespace Sys2Proof

/-! ### Bytes and words -/

/-- Big-endian combination of the two fetched bytes: `op = M[pc] * 256 + M[pc+1]` (R56). -/
def wordOfBytes (hi lo : Byte) : Word :=
  BitVec.ofNat 16 (hi.toNat * 256 + lo.toNat)

/-- The byte that supplies `op[15:8]`, at the lower address (R56). -/
def highByte (op : Word) : Byte :=
  op.extractLsb' 8 8

/-- The byte that supplies `op[7:0]` (R56). -/
def lowByte (op : Word) : Byte :=
  op.extractLsb' 0 8

/-! ### Fields (R81) -/

/-- `x = op[11:8]`. -/
def fieldX (op : Word) : RegIdx :=
  op.extractLsb' 8 4

/-- `y = op[7:4]`. -/
def fieldY (op : Word) : RegIdx :=
  op.extractLsb' 4 4

/-- `n = op[3:0]`. -/
def fieldN (op : Word) : Nibble :=
  op.extractLsb' 0 4

/-- `kk = op[7:0]`. -/
def fieldKK (op : Word) : Byte :=
  op.extractLsb' 0 8

/-- `nnn = op[11:0]`. -/
def fieldNNN (op : Word) : Addr12 :=
  op.extractLsb' 0 12

/-! ### The opcode map (R83) -/

/-- One row of R83: a word is this instruction exactly when `op & mask = pattern`; `build` reads the operands from the
word's fields. -/
structure OpcodeRow where
  mnemonic : String
  mask : Word
  pattern : Word
  build : Word → Instr

/-- Whether a word is the row's instruction: `op & mask = match` (R83). -/
def OpcodeRow.accepts (r : OpcodeRow) (op : Word) : Bool :=
  op &&& r.mask == r.pattern

/-- R83, all 21 rows in the table's order. -/
def opcodeTable : List OpcodeRow :=
  [ ⟨"CLS", 0xFFFF, 0x00E0, fun _ => .cls⟩,
    ⟨"RET", 0xFFFF, 0x00EE, fun _ => .ret⟩,
    ⟨"JP", 0xF000, 0x1000, fun op => .jp (fieldNNN op)⟩,
    ⟨"CALL", 0xF000, 0x2000, fun op => .call (fieldNNN op)⟩,
    ⟨"SE_IMM", 0xF000, 0x3000, fun op => .seImm (fieldX op) (fieldKK op)⟩,
    ⟨"LD_IMM", 0xF000, 0x6000, fun op => .ldImm (fieldX op) (fieldKK op)⟩,
    ⟨"ADD_IMM", 0xF000, 0x7000, fun op => .addImm (fieldX op) (fieldKK op)⟩,
    ⟨"LD_REG", 0xF00F, 0x8000, fun op => .ldReg (fieldX op) (fieldY op)⟩,
    ⟨"AND", 0xF00F, 0x8002, fun op => .andReg (fieldX op) (fieldY op)⟩,
    ⟨"XOR", 0xF00F, 0x8003, fun op => .xorReg (fieldX op) (fieldY op)⟩,
    ⟨"ADD_REG", 0xF00F, 0x8004, fun op => .addReg (fieldX op) (fieldY op)⟩,
    ⟨"SUB", 0xF00F, 0x8005, fun op => .sub (fieldX op) (fieldY op)⟩,
    ⟨"SHR", 0xF00F, 0x8006, fun op => .shr (fieldX op) (fieldY op)⟩,
    ⟨"LD_I", 0xF000, 0xA000, fun op => .ldI (fieldNNN op)⟩,
    ⟨"DRW", 0xF000, 0xD000, fun op => .drw (fieldX op) (fieldY op) (fieldN op)⟩,
    ⟨"SKP", 0xF0FF, 0xE09E, fun op => .skp (fieldX op)⟩,
    ⟨"SKNP", 0xF0FF, 0xE0A1, fun op => .sknp (fieldX op)⟩,
    ⟨"LD_V_DT", 0xF0FF, 0xF007, fun op => .ldVDt (fieldX op)⟩,
    ⟨"LD_DT_V", 0xF0FF, 0xF015, fun op => .ldDtV (fieldX op)⟩,
    ⟨"ADD_I", 0xF0FF, 0xF01E, fun op => .addI (fieldX op)⟩,
    ⟨"LD_V_MEM", 0xF0FF, 0xF065, fun op => .ldVMem (fieldX op)⟩ ]

/-- Why bytes are no instruction. -/
inductive DecodeReject where
  /-- The word matches no row of R83: an illegal word (R85). Raised as `UnknownOpcode` by the step; safe, as the spec
  says it. -/
  | unknownOpcode (op : Word)
  /-- Fewer than the 2 bytes every instruction takes (R80). Only `decodeBytes` on a short list answers it. -/
  | truncated (available : Nat)
  deriving DecidableEq, Repr

/-- R84, `Decode(op)`: the row that matches, with its fields, or a rejection by name. -/
def decodeWord (op : Word) : Except DecodeReject Instr :=
  match opcodeTable.find? (fun r => r.accepts op) with
  | some r => .ok (r.build op)
  | none => .error (.unknownOpcode op)

/-- Decoding of a byte stream: consumes 2 bytes (R80, R56) and answers the rest with the instruction. -/
def decodeBytes : List Byte → Except DecodeReject (Instr × List Byte)
  | [] => .error (.truncated 0)
  | [_] => .error (.truncated 1)
  | hi :: lo :: rest =>
    match decodeWord (wordOfBytes hi lo) with
    | .ok i => .ok (i, rest)
    | .error e => .error e

/-! ### Encoding (R16's concatenation of R83's patterns) -/

/-- The N-view word `c:nnn` (R81). -/
def encodeN (c : Nibble) (nnn : Addr12) : Word :=
  c ++ nnn

/-- The XKK-view word `c:x:kk` (R81). -/
def encodeXKK (c : Nibble) (x : RegIdx) (kk : Byte) : Word :=
  c ++ x ++ kk

/-- The XYN-view word `c:x:y:n` (R81). -/
def encodeXYN (c : Nibble) (x y : RegIdx) (n : Nibble) : Word :=
  c ++ x ++ y ++ n

/-- The word of an instruction (R83). -/
def encode : Instr → Word
  | .cls => 0x00E0
  | .ret => 0x00EE
  | .jp nnn => encodeN 0x1 nnn
  | .call nnn => encodeN 0x2 nnn
  | .seImm x kk => encodeXKK 0x3 x kk
  | .ldImm x kk => encodeXKK 0x6 x kk
  | .addImm x kk => encodeXKK 0x7 x kk
  | .ldReg x y => encodeXYN 0x8 x y 0x0
  | .andReg x y => encodeXYN 0x8 x y 0x2
  | .xorReg x y => encodeXYN 0x8 x y 0x3
  | .addReg x y => encodeXYN 0x8 x y 0x4
  | .sub x y => encodeXYN 0x8 x y 0x5
  | .shr x y => encodeXYN 0x8 x y 0x6
  | .ldI nnn => encodeN 0xA nnn
  | .drw x y n => encodeXYN 0xD x y n
  | .skp x => encodeXKK 0xE x 0x9E
  | .sknp x => encodeXKK 0xE x 0xA1
  | .ldVDt x => encodeXKK 0xF x 0x07
  | .ldDtV x => encodeXKK 0xF x 0x15
  | .addI x => encodeXKK 0xF x 0x1E
  | .ldVMem x => encodeXKK 0xF x 0x65

/-- The two bytes of an instruction, in the order memory holds them (R56). -/
def encodeBytes (i : Instr) : List Byte :=
  [highByte (encode i), lowByte (encode i)]

/-! ### The host's view of the opcode table -/

/-- The word whose bits are `w`, those from `nbits` upward 0. -/
def tableWord (nbits w : Nat) : Word :=
  BitVec.ofNat 16 (w % 2 ^ nbits)

/-- The instruction the decoder reads from the table's word: its bytes laid out as memory holds them, then decoded. -/
def decodeTableWord (nbits w : Nat) : Option Instr :=
  match decodeBytes [highByte (tableWord nbits w), lowByte (tableWord nbits w)] with
  | .ok (i, _) => some i
  | .error _ => none

end Sys2Proof
end

