-- ==== Sys2Proof/Config.lean ====
section
/-! DEFINITION. The implementation parameters of spec/00_scope.md section 3, each at the value its rule gives.
The spec leaves no value of an instruction open, so there is no free value here. -/

namespace Sys2Proof.Config

/-- `MEM_SIZE`: valid byte addresses are 0 to 4095 (R7). -/
abbrev memSize : Nat := 4096

/-- `PROG_BASE`: where the program image is loaded and where execution starts (R8, R261). -/
abbrev progBase : Nat := 0x200

/-- `NUM_V`: the number of general registers (R9). -/
abbrev numV : Nat := 16

/-- `STACK_DEPTH`: the most return addresses the call stack holds (R11; the spec's named parameter, decision D7),
at the value the rule gives it. -/
abbrev stackDepth : Nat := 16

/-- `DISP_W`: columns, the x coordinate 0..63 (R12). -/
abbrev dispW : Nat := 64

/-- `DISP_H`: rows, the y coordinate 0..31 (R12). -/
abbrev dispH : Nat := 32

/-- `NUM_KEYS`: keys 0..15 (R13). -/
abbrev numKeys : Nat := 16

/-- `MAX_IMAGE` = `MEM_SIZE - PROG_BASE` = 3584 bytes (R15). -/
abbrev maxImage : Nat := memSize - progBase

end Sys2Proof.Config
end

