-- ==== Sys2Proof/Machine/State.lean ====
section
/-! DEFINITION. The architectural state of the block, spec/10_state.md R20, as plain data: every element of the tuple is a
field, and no state lies outside it (R20, R33). Also the fault record (spec/60_exceptions.md R220), the two stop reasons of
the host's interface, and the state after reset (spec/70_reset_and_hazards.md R260). -/

namespace Sys2Proof.Machine

/-- The seven kinds of fault a step can raise, each with the `info` the table of R220 gives it. None of them stops the
model: a faulting step is a next state whose latch holds the kind (R91, R229). -/
inductive FaultKind where
  /-- Code 1. A fetch, a sprite read or a register load touches address `addr` >= 4096, the lowest such (R221). -/
  | outOfBounds (addr : Nat)
  /-- Code 2. `00EE` with an empty stack (R222). -/
  | stackUnderflow
  /-- Code 3. `2nnn` with `depth` = STACK_DEPTH entries on the stack (R223). -/
  | stackOverflow (depth : Nat)
  /-- Code 4. `Ex9E` or `ExA1` with Vx = `key` > 15 (R224). -/
  | invalidKey (key : Byte)
  /-- Code 5. The fetched word is no instruction; the record's opcode is its info (R225). -/
  | unknownOpcode
  /-- Code 6. `1nnn` or `2nnn` with the odd `target` (R226). -/
  | misalignedTarget (target : Word)
  /-- Code 7. `Dxyn` whose 8 x `n` block at (`px`, `py`) leaves the grid (R227). -/
  | displayOutOfRange (px py : Byte) (n : Nat)
  deriving DecidableEq, Repr

/-- The code column of R220. -/
def FaultKind.code : FaultKind → Nat
  | .outOfBounds _ => 1
  | .stackUnderflow => 2
  | .stackOverflow _ => 3
  | .invalidKey _ => 4
  | .unknownOpcode => 5
  | .misalignedTarget _ => 6
  | .displayOutOfRange _ _ _ => 7

/-- `FaultRecord` (R220): `kind` carries the info and fixes the code; `pc` is the address the step fetched from; `opcode`
is the fetched word, absent when the fetch itself faulted. -/
structure FaultRecord where
  kind : FaultKind
  pc : Word
  opcode : Option Word
  deriving DecidableEq, Repr

/-- The record's `code` (R220). -/
def FaultRecord.code (r : FaultRecord) : Nat :=
  r.kind.code

/-- Memory (R31) as the list of the (address, byte) pairs that differ from reset, in rising address order. -/
abbrev Memory := List Host.Cell

/-- What an address that is not listed reads as: every byte is 0 at reset (R31, R54, R260). -/
def Memory.unlisted : Byte := 0

/-- The framebuffer `fb[y][x]`, 32 rows of 64 one-bit pixels (R30); `true` is a set pixel. -/
abbrev Framebuffer := Vector (Vector Bool Config.dispW) Config.dispH

/-- The state tuple of R20. -/
structure State where
  /-- General registers V0..VF (R21); V[15] is VF, the flag (R22). -/
  v : Vector Byte Config.numV
  /-- Index register I (R24). -/
  i : Word
  /-- Program counter (R25). -/
  pc : Word
  /-- Call-return stack, the last entry being the top (R27). -/
  stack : List Word
  /-- The decrementing timer (R28). -/
  timer : Byte
  /-- KeyState, `true` = pressed (R29). -/
  keys : Vector Bool Config.numKeys
  /-- Display framebuffer (R30). -/
  fb : Framebuffer
  /-- Memory (R31). -/
  mem : Memory
  /-- The fault latch (R32). -/
  fault : Option FaultRecord
  deriving DecidableEq, Repr

/-- Reasons for `Host.Outcome.fault`. There are none: the spec describes what every faulting step does (it sets the latch
and writes nothing else: R91, R229), so such a step answers a next state, and no step stops the machine. Safe: nothing the
hardware does is cut short. -/
inductive Fault where
  deriving DecidableEq, Repr

/-- Reasons for `Host.Outcome.refused`. -/
inductive Refusal where
  /-- An arm of `exec` whose instruction has no meaning yet. No arm answers it. Safe. -/
  | notModelled (mnemonic : String)
  /-- The host requests `LoadByte` after the first `Step`, which the spec does not admit (R52, R240; D21). Raised by
  `transact`, never by `step`. Safe: the model says nothing of a host that does so. -/
  | loadNotAdmitted
  /-- The loader offers an image of more than MAX_IMAGE bytes; such a load does not start (R263). Raised by `boot`, never
  by `step`. Safe: the model says nothing of a block loaded with one. -/
  | imageTooLong
  deriving DecidableEq, Repr

/-- The state right after reset (R260): everything 0 or cleared, `pc` at PROG_BASE. -/
def State.reset : State where
  v := Vector.replicate Config.numV 0
  i := 0
  pc := BitVec.ofNat 16 Config.progBase
  stack := []
  timer := 0
  keys := Vector.replicate Config.numKeys false
  fb := Vector.replicate Config.dispH (Vector.replicate Config.dispW false)
  mem := []
  fault := none

end Sys2Proof.Machine
end

