-- ==== Sys2Proof/Machine/Ops.lean ====
section
/-! DEFINITION. The named operations over registers, memory, the call stack, the program counter and the fault latch
(spec/00_scope.md R18; spec/10_state.md R21 to R32; spec/20_memory.md R51 to R53; spec/30_encoding.md R90, R91). -/

namespace Sys2Proof.Machine

/-! ### General registers (R21) -/

/-- VF, the flag register: `V[15]` (R22). -/
def flagReg : RegIdx := 0xF

/-- `V[x]`. -/
def State.readV (s : State) (x : RegIdx) : Byte :=
  s.v[x.toNat]'x.isLt

/-- `V[x] <- b`. -/
def State.writeV (s : State) (x : RegIdx) (b : Byte) : State :=
  { s with v := s.v.set x.toNat b x.isLt }

/-- `VF <- b`. -/
def State.writeFlag (s : State) (b : Byte) : State :=
  s.writeV flagReg b

/-! ### Index register and program counter (R24, R25, R90) -/

/-- `I <- w`. -/
def State.setI (s : State) (w : Word) : State :=
  { s with i := w }

/-- `pc <- w`. -/
def State.setPc (s : State) (w : Word) : State :=
  { s with pc := w }

/-- The address of the instruction after this one, `pc + 2` as a 16-bit value (R90, R112). DESIGN CHOICE (log entry 1): the
sum wraps where it does not fit; unsafe only in states no run reaches, since `pc` is at most 0x1002 (R26). -/
def State.nextPc (s : State) : Word :=
  s.pc + 2

/-- `pc <- pc + 2` (R90). -/
def State.advance (s : State) : State :=
  s.setPc s.nextPc

/-- `pc <- pc + 4`, a taken skip (R90). DESIGN CHOICE (log entry 1): wraps, as `nextPc` does. -/
def State.skipNext (s : State) : State :=
  s.setPc (s.pc + 4)

/-- The end of a skip instruction: `pc + 4` when the skip is taken, else `pc + 2` (R90). -/
def State.skipIf (s : State) (taken : Bool) : State :=
  if taken then s.skipNext else s.advance

/-! ### Memory (R31, R50 to R54) -/

/-- The byte at an address: the listed one, or what an unlisted address reads as. -/
def Memory.read : Memory → Nat → Byte
  | [], _ => Memory.unlisted
  | (k, b) :: rest, a => if k = a then b else Memory.read rest a

/-- Store a byte, keeping the list in its canonical form: rising addresses, no entry equal to the unlisted byte. -/
def Memory.write : Memory → Nat → Byte → Memory
  | [], a, b => if b = Memory.unlisted then [] else [(a, b)]
  | (k, c) :: rest, a, b =>
    if a < k then
      if b = Memory.unlisted then (k, c) :: rest else (a, b) :: (k, c) :: rest
    else if a = k then
      if b = Memory.unlisted then rest else (a, b) :: rest
    else (k, c) :: Memory.write rest a b

/-- The canonical form: addresses strictly rising and in the address space, no entry equal to the unlisted byte. Equal
memories are then equal lists. -/
abbrev Memory.wf (m : Memory) : Prop :=
  m.Pairwise (fun c d => c.1 < d.1) ∧ ∀ c ∈ m, c.1 < Config.memSize ∧ c.2 ≠ Memory.unlisted

/-- `MemRead(a, 1)` (R51): the address is an unbounded number, checked as it is (R53). -/
def State.memRead (s : State) (a : Nat) : Except FaultKind Byte :=
  if a ≥ Config.memSize then .error (.outOfBounds a) else .ok (s.mem.read a)

/-- `MemWrite(a, 1, v)` (R52). Only the host's load uses it; no instruction does. -/
def State.memWrite (s : State) (a : Nat) (b : Byte) : Except FaultKind State :=
  if a ≥ Config.memSize then .error (.outOfBounds a) else .ok { s with mem := s.mem.write a b }

/-! ### Call-return stack (R27) -/

/-- `Push(v)`. -/
def State.push (s : State) (w : Word) : Except FaultKind State :=
  if s.stack.length = Config.stackDepth then .error (.stackOverflow Config.stackDepth)
  else .ok { s with stack := s.stack ++ [w] }

/-- `Pop()`: the top entry, and the state without it. -/
def State.pop (s : State) : Except FaultKind (Word × State) :=
  match s.stack.getLast? with
  | none => .error .stackUnderflow
  | some w => .ok (w, { s with stack := s.stack.dropLast })

/-! ### Taking a fault (R91, R229)

There is no return from a fault: no handler runs, and only `Reset` clears the latch (R230, R231). -/

/-- Fault entry: the latch takes the record, with the address fetched from and the word (absent when the fetch faulted);
nothing else changes. -/
def State.takeFault (s : State) (opcode : Option Word) (k : FaultKind) : State :=
  { s with fault := some { kind := k, pc := s.pc, opcode := opcode } }

/-- How an instruction's step ends: with its effect, or, if it raised a fault, with the fault taken in the state from
before the step (R91). The record's opcode is the word the step fetched; a meaning has the instruction in its place, and each
instruction has exactly one word (R83), its `encode`. -/
def conclude (i : Instr) (s : State) (r : Except FaultKind State) : Host.Outcome State Fault Refusal :=
  match r with
  | .ok t => .next t
  | .error k => .next (s.takeFault (some (encode i)) k)

end Sys2Proof.Machine
end

