-- ==== Sys2Proof/Machine/Alu.lean ====
section
/-! DEFINITION. Register and arithmetic instructions: 6xkk, 7xkk, 8xy0, 8xy2 to 8xy6 (spec/42_alu.md R130 to R138). Every
operand is the value from before the step (spec/30_encoding.md R93), and a flag is written after the result (R22). -/

namespace Sys2Proof.Machine

/-- `6xkk`, LD Vx, kk (R131). -/
def execLdImm (x : RegIdx) (kk : Byte) (s : State) : Host.Outcome State Fault Refusal :=
  .next (s.writeV x kk).advance

/-- `7xkk`, ADD Vx, kk (R132): wraps, no flag. -/
def execAddImm (x : RegIdx) (kk : Byte) (s : State) : Host.Outcome State Fault Refusal :=
  .next (s.writeV x (add8 (s.readV x) kk)).advance

/-- `8xy0`, LD Vx, Vy (R133). -/
def execLdReg (x y : RegIdx) (s : State) : Host.Outcome State Fault Refusal :=
  .next (s.writeV x (s.readV y)).advance

/-- `8xy2`, AND Vx, Vy (R134): VF is not a side effect. -/
def execAndReg (x y : RegIdx) (s : State) : Host.Outcome State Fault Refusal :=
  .next (s.writeV x (s.readV x &&& s.readV y)).advance

/-- `8xy3`, XOR Vx, Vy (R135): VF is not a side effect. -/
def execXorReg (x y : RegIdx) (s : State) : Host.Outcome State Fault Refusal :=
  .next (s.writeV x (s.readV x ^^^ s.readV y)).advance

/-- `8xy4`, ADD Vx, Vy (R136): the carry goes to VF, last. -/
def execAddReg (x y : RegIdx) (s : State) : Host.Outcome State Fault Refusal :=
  let a := s.readV x
  let b := s.readV y
  .next ((s.writeV x (add8 a b)).writeFlag (bool01 (carries a b))).advance

/-- `8xy5`, SUB Vx, Vy (R137): VF is 1 on a borrow, written last. -/
def execSub (x y : RegIdx) (s : State) : Host.Outcome State Fault Refusal :=
  let a := s.readV x
  let b := s.readV y
  .next ((s.writeV x (sub8 a b)).writeFlag (bool01 (borrows a b))).advance

/-- `8xy6`, SHR Vx, Vy (R138): Vy shifted right by one goes to both registers, its old low bit to VF, last. -/
def execShr (x y : RegIdx) (s : State) : Host.Outcome State Fault Refusal :=
  let b := s.readV y
  .next (((s.writeV x (shr1 b)).writeV y (shr1 b)).writeFlag (bool01 (shiftedOut b))).advance

end Sys2Proof.Machine
end

