-- ==== Sys2Proof/Machine/Operands.lean ====
section
/-! DEFINITION. Operand forms (spec/30_encoding.md R82; spec/43_index_memory.md, the one data addressing mode;
spec/20_memory.md R53). -/

namespace Sys2Proof.Machine

/-- `zext_16(nnn)` (R82). -/
def zext16 (nnn : Addr12) : Word :=
  nnn.setWidth 16

/-- A jump or call target: `zext_16(nnn)`, which must be even (R111, R112, R226). -/
def evenTarget (nnn : Addr12) : Except FaultKind Word :=
  if (zext16 nnn).getLsbD 0 then .error (.misalignedTarget (zext16 nnn)) else .ok (zext16 nnn)

/-- The effective address `I + offset`, an unbounded sum (R53). -/
def State.effectiveAddr (s : State) (offset : Nat) : Nat :=
  s.i.toNat + offset

/-- `b[r] <- MemRead(I + r, 1)` for `r` from `first`, `count` of them, in rising order; the first failing read is the fault
(R162, R181). -/
def State.readFromI (s : State) (first : Nat) : Nat → Except FaultKind (List Byte)
  | 0 => .ok []
  | count + 1 =>
    match s.memRead (s.effectiveAddr first) with
    | .error k => .error k
    | .ok b =>
      match s.readFromI (first + 1) count with
      | .error k => .error k
      | .ok bs => .ok (b :: bs)

/-- `V[k] <- b[k]` in ascending order, from register `k` (R162). -/
def State.loadV (s : State) (k : Nat) : List Byte → State
  | [] => s
  | b :: bs => State.loadV (s.writeV (BitVec.ofNat 4 k) b) (k + 1) bs

end Sys2Proof.Machine
end

