-- ==== Sys2Proof/Machine/ControlFlow.lean ====
section
/-! DEFINITION. Control flow: 00EE, 1nnn, 2nnn, 3xkk (spec/41_control_flow.md R110 to R114). -/

namespace Sys2Proof.Machine

/-- `00EE`, RET (R110): `pc <- Pop()`. -/
def execRet (s : State) : Host.Outcome State Fault Refusal :=
  conclude .ret s
    (match s.pop with
    | .error k => .error k
    | .ok (target, popped) => .ok (popped.setPc target))

/-- `1nnn`, JP nnn (R111). -/
def execJp (nnn : Addr12) (s : State) : Host.Outcome State Fault Refusal :=
  conclude (.jp nnn) s
    (match evenTarget nnn with
    | .error k => .error k
    | .ok target => .ok (s.setPc target))

/-- `2nnn`, CALL nnn (R112): the target is checked before the push (R228). -/
def execCall (nnn : Addr12) (s : State) : Host.Outcome State Fault Refusal :=
  conclude (.call nnn) s
    (match evenTarget nnn with
    | .error k => .error k
    | .ok target =>
      match s.push s.nextPc with
      | .error k => .error k
      | .ok pushed => .ok (pushed.setPc target))

/-- `3xkk`, SE Vx, kk (R113). DEDUCED (log entry 6): it reads Vx as R113 says, although R21's list of the files whose
instructions read a general register leaves this one's out; unsafe if that list were complete. -/
def execSeImm (x : RegIdx) (kk : Byte) (s : State) : Host.Outcome State Fault Refusal :=
  .next (s.skipIf (s.readV x == kk))

end Sys2Proof.Machine
end

