-- ==== Sys2Proof/Machine/Bus.lean ====
section
/-! DEFINITION. The Bus's device primitives (spec/20_memory.md R59 to R64): Display, KeyState and Timer. None of them has a
memory address (R55). -/

namespace Sys2Proof.Machine

/-! ### Display (R30, R59, R60) -/

/-- `fb[y][x]`. Off the grid there is no pixel; the primitives below never ask for one there. -/
def Framebuffer.pixel (fb : Framebuffer) (x y : Nat) : Bool :=
  if h : y < Config.dispH then (if hx : x < Config.dispW then (fb[y])[x] else false) else false

/-- `fb[y][x] <- b`. -/
def Framebuffer.setPixel (fb : Framebuffer) (x y : Nat) (b : Bool) : Framebuffer :=
  if h : y < Config.dispH then fb.set y ((fb[y]).setIfInBounds x b) else fb

/-- One sprite bit at pixel (x, y): a 1 bit toggles the pixel and reports a collision when it was set; a 0 bit leaves it
(R59). -/
def drawBit (acc : Framebuffer × Bool) (x y : Nat) (bit : Bool) : Framebuffer × Bool :=
  if bit then (acc.1.setPixel x y (acc.1.pixel x y ^^ true), acc.2 || acc.1.pixel x y) else acc

/-- The columns `c .. 7` of one sprite byte in row `y`, `count` of them: bit `7 - c` goes to column `px + c` (R59). -/
def drawColumns (px y : Nat) (byte : Byte) (c : Nat) : Nat → Framebuffer × Bool → Framebuffer × Bool
  | 0, acc => acc
  | count + 1, acc => drawColumns px y byte (c + 1) count (drawBit acc (px + c) y (byte.getLsbD (7 - c)))

/-- The rows of a sprite, the first in row `y` (R59). -/
def drawRows (px y : Nat) : List Byte → Framebuffer × Bool → Framebuffer × Bool
  | [], acc => acc
  | byte :: rest, acc => drawRows px (y + 1) rest (drawColumns px y byte 0 8 acc)

/-- Whether the 8 x n block at (px, py) leaves the grid: `px + 7 > 63 or py + n - 1 > 31` (R59, R227). -/
def blockOffGrid (px py : Byte) (n : Nat) : Bool :=
  px.toNat + 7 > Config.dispW - 1 || py.toNat + n - 1 > Config.dispH - 1

/-- `Draw(px, py, bytes)` (R59): the framebuffer XORed with the sprite, and `collided`. -/
def State.draw (s : State) (px py : Byte) (bytes : List Byte) : Except FaultKind (Bool × State) :=
  if bytes.length = 0 then .ok (false, s)
  else if blockOffGrid px py bytes.length then .error (.displayOutOfRange px py bytes.length)
  else
    let drawn := drawRows px.toNat py.toNat bytes (s.fb, false)
    .ok (drawn.2, { s with fb := drawn.1 })

/-- `ClearDisplay()` (R60): every pixel 0. -/
def State.clearDisplay (s : State) : State :=
  { s with fb := Vector.replicate Config.dispH (Vector.replicate Config.dispW false) }

/-! ### KeyState (R29, R61, R64) -/

/-- `KeyPressed(k)` (R61). -/
def State.keyPressed (s : State) (k : Byte) : Except FaultKind Bool :=
  if h : k.toNat < Config.numKeys then .ok (s.keys[k.toNat]) else .error (.invalidKey k)

/-- `SetPressed(k, b)` (R64), the host's. -/
def State.setPressed (s : State) (k : Byte) (b : Bool) : Except FaultKind State :=
  if h : k.toNat < Config.numKeys then .ok { s with keys := s.keys.set k.toNat b } else .error (.invalidKey k)

/-! ### Timer (R28, R62, R63) -/

/-- `TimerGet()` (R62). -/
def State.timerGet (s : State) : Byte :=
  s.timer

/-- `TimerSet(v)` (R62). -/
def State.timerSet (s : State) (b : Byte) : State :=
  { s with timer := b }

/-- `Tick()` (R63), the host's: decrement by one, floor at zero, whatever the fault latch holds. -/
def State.tick (s : State) : State :=
  if s.timer.toNat > 0 then { s with timer := BitVec.ofNat 8 (s.timer.toNat - 1) } else s

end Sys2Proof.Machine
end

