-- ==== Sys2Proof/Machine/Display.lean ====
section
/-! DEFINITION. Display instructions: 00E0, Dxyn (spec/44_display.md R180, R181). -/

namespace Sys2Proof.Machine

/-- `00E0`, CLS (R180). -/
def execCls (s : State) : Host.Outcome State Fault Refusal :=
  .next s.clearDisplay.advance

/-- `Dxyn`, DRW Vx, Vy, n (R181): the coordinates and the sprite bytes are read first, then the draw, then VF. -/
def execDrw (x y : RegIdx) (n : Nibble) (s : State) : Host.Outcome State Fault Refusal :=
  conclude (.drw x y n) s
    (match s.readFromI 0 n.toNat with
    | .error k => .error k
    | .ok bytes =>
      match s.draw (s.readV x) (s.readV y) bytes with
      | .error k => .error k
      | .ok (collided, drawn) => .ok (drawn.writeFlag (bool01 collided)).advance)

end Sys2Proof.Machine
end

