-- ==== Sys2Proof/Machine/IndexMemory.lean ====
section
/-! DEFINITION. Index register and memory loads: Annn, Fx1E, Fx65 (spec/43_index_memory.md R160 to R162). -/

namespace Sys2Proof.Machine

/-- `Annn`, LD I, nnn (R160). -/
def execLdI (nnn : Addr12) (s : State) : Host.Outcome State Fault Refusal :=
  .next (s.setI (zext16 nnn)).advance

/-- `Fx1E`, ADD I, Vx (R161): wraps at 16 bits, no flag, no check. -/
def execAddI (x : RegIdx) (s : State) : Host.Outcome State Fault Refusal :=
  .next (s.setI (addIndex s.i (s.readV x))).advance

/-- `Fx65`, LD Vx, [I] (R162): all `x + 1` reads, then all writes; `I` is unchanged. -/
def execLdVMem (x : RegIdx) (s : State) : Host.Outcome State Fault Refusal :=
  conclude (.ldVMem x) s
    (match s.readFromI 0 (x.toNat + 1) with
    | .error k => .error k
    | .ok bytes => .ok (s.loadV 0 bytes).advance)

end Sys2Proof.Machine
end

