-- ==== Sys2Proof/Machine/KeysTimer.lean ====
section
/-! DEFINITION. Key and timer instructions: Ex9E, ExA1, Fx07, Fx15 (spec/45_keys_timer.md R200 to R203). -/

namespace Sys2Proof.Machine

/-- `Ex9E`, SKP Vx (R200). -/
def execSkp (x : RegIdx) (s : State) : Host.Outcome State Fault Refusal :=
  conclude (.skp x) s
    (match s.keyPressed (s.readV x) with
    | .error k => .error k
    | .ok pressed => .ok (s.skipIf pressed))

/-- `ExA1`, SKNP Vx (R201). -/
def execSknp (x : RegIdx) (s : State) : Host.Outcome State Fault Refusal :=
  conclude (.sknp x) s
    (match s.keyPressed (s.readV x) with
    | .error k => .error k
    | .ok pressed => .ok (s.skipIf (!pressed)))

/-- `Fx07`, LD Vx, DT (R202). -/
def execLdVDt (x : RegIdx) (s : State) : Host.Outcome State Fault Refusal :=
  .next (s.writeV x s.timerGet).advance

/-- `Fx15`, LD DT, Vx (R203). -/
def execLdDtV (x : RegIdx) (s : State) : Host.Outcome State Fault Refusal :=
  .next (s.timerSet (s.readV x)).advance

end Sys2Proof.Machine
end

