-- ==== Sys2Proof/Machine/Fetch.lean ====
section
/-! DEFINITION. Instruction fetch (spec/30_encoding.md R89; spec/20_memory.md R56), and the placing of a word where the next
fetch reads it. -/

namespace Sys2Proof.Machine

/-- The fetch of R89: the bytes at `pc` and `pc + 1` (unbounded sum, R53), combined big-endian. -/
def State.fetch (s : State) : Except FaultKind Word :=
  match s.memRead s.pc.toNat with
  | .error k => .error k
  | .ok hi =>
    match s.memRead (s.pc.toNat + 1) with
    | .error k => .error k
    | .ok lo => .ok (wordOfBytes hi lo)

/-- A byte placed in memory as a load would place it; past the end of memory nothing is placed. -/
def State.placeByte (s : State) (a : Nat) (b : Byte) : State :=
  match s.memWrite a b with
  | .ok t => t
  | .error _ => s

/-- A word placed at `pc`, first byte first, with the latch clear so that the next step fetches it (R89, R92).
DESIGN CHOICE (log entry 2): stands for the host's load. Safe: no step uses it. -/
def State.placeAtPc (s : State) (op : Word) : State :=
  let t := (s.placeByte s.pc.toNat (highByte op)).placeByte (s.pc.toNat + 1) (lowByte op)
  { t with fault := none }

end Sys2Proof.Machine
end

