-- ==== Sys2Proof/Machine/Step.lean ====
section
/-! DEFINITION. One step: fetch, decode, execute (spec/30_encoding.md R89, R91, R92). -/

namespace Sys2Proof.Machine

/-- `Step()` (R89). While a fault is latched nothing changes (R92); a fetch or decode fault is taken as R91 says, the opcode
absent from the record of a fetch fault. -/
def step (s : State) : Host.Outcome State Fault Refusal :=
  match s.fault with
  | some _ => .next s
  | none =>
    match s.fetch with
    | .error k => .next (s.takeFault none k)
    | .ok op =>
      match decodeWord op with
      | .error _ => .next (s.takeFault (some op) .unknownOpcode)
      | .ok i => exec i s

/-- `s` with the table's word placed where the next step fetches (log entry 2). -/
def State.withFetchWord (s : State) (nbits w : Nat) : State :=
  s.placeAtPc (tableWord nbits w)

end Sys2Proof.Machine
end

