-- ==== Sys2Proof/Machine/Transactions.lean ====
section
/-! DEFINITION. The host interface: the transactions of spec/60_exceptions.md R240, their failures (R242), and the boot
sequence (spec/70_reset_and_hazards.md R262, R263). Each transaction is atomic and falls between two steps (R241); `step`
itself delivers none (DESIGN CHOICE, log entry 3: unsafe for a claim about a run of steps alone). -/

namespace Sys2Proof.Machine

/-- What the host may request (R240). -/
inductive Transaction where
  /-- `Reset()` (R260). -/
  | reset
  /-- `LoadByte(a, v)` (R52). -/
  | loadByte (a : Nat) (b : Byte)
  /-- `Step()` (R89). -/
  | step
  /-- `Tick()` (R63). -/
  | tick
  /-- `SetPressed(k, b)` (R64); a key value is 8 bits wide (R220). -/
  | setPressed (k : Byte) (b : Bool)
  /-- `ReadPixel(x, y)`. DESIGN CHOICE (log entry 5): only coordinates on the grid can be requested. Safe. -/
  | readPixel (x : Fin Config.dispW) (y : Fin Config.dispH)
  /-- `ReadFramebuffer()`. -/
  | readFramebuffer
  /-- `ReadStatus()`. -/
  | readStatus
  deriving DecidableEq, Repr

/-- What `ReadStatus` returns (R240, D34). -/
structure Status where
  fault : Option FaultRecord
  pc : Word
  v : Vector Byte Config.numV
  i : Word
  depth : Nat
  entries : List Word
  timer : Byte
  deriving DecidableEq, Repr

/-- What a transaction returns (R240). -/
inductive Response where
  /-- Nothing is returned. -/
  | none
  /-- The transaction succeeded. -/
  | ok
  /-- A host-side failure, `OutOfBounds(a)` or `InvalidKey(k)`; the latch is untouched (R242). -/
  | failed (k : FaultKind)
  /-- A step's FaultRecord (R91, R92). -/
  | faulted (r : FaultRecord)
  | pixel (b : Bool)
  | framebuffer (fb : Framebuffer)
  | status (st : Status)
  deriving DecidableEq, Repr

/-- Whether `LoadByte` is admitted: after `Reset` and before the first `Step` (R240, D21). -/
inductive Phase where
  | loading
  | running
  deriving DecidableEq, Repr

/-- The block with the host's side of the protocol. The phase is no state of the block (R20): the model keeps it to tell
which transactions the spec admits. DESIGN CHOICE (log entry 4): safe. -/
structure Session where
  phase : Phase
  state : State
  deriving DecidableEq, Repr

/-- The block as it is created, before any transaction: every element at its reset value (R260).
DESIGN CHOICE (log entry 4): loading is admitted from there. Safe. -/
def Session.start : Session where
  phase := .loading
  state := State.reset

/-- The status read port (R240). -/
def State.status (s : State) : Status where
  fault := s.fault
  pc := s.pc
  v := s.v
  i := s.i
  depth := s.stack.length
  entries := s.stack
  timer := s.timer

/-- What `Step` returns: ok, or the latched record (R91, R92). -/
def stepResponse (s : State) : Response :=
  match s.fault with
  | none => .ok
  | some r => .faulted r

/-- A host-side write of a state element: the new state, or a failure that changes nothing (R242). -/
def hostWrite (u : Session) (r : Except FaultKind State) : Session × Response :=
  match r with
  | .ok t => ({ u with state := t }, .ok)
  | .error k => (u, .failed k)

/-- One transaction (R240). -/
def transact (t : Transaction) (u : Session) : Host.Outcome (Session × Response) Fault Refusal :=
  match t with
  | .reset => .next ({ phase := .loading, state := State.reset }, .none)
  | .loadByte a b =>
    match u.phase with
    | .loading => .next (hostWrite u (u.state.memWrite a b))
    | .running => .refused .loadNotAdmitted
  | .step =>
    match step u.state with
    | .next s => .next ({ phase := .running, state := s }, stepResponse s)
    | .fault r => .fault r
    | .refused r => .refused r
  | .tick => .next ({ u with state := u.state.tick }, .none)
  | .setPressed k b => .next (hostWrite u (u.state.setPressed k b))
  | .readPixel x y => .next (u, .pixel (u.state.fb.pixel x.val y.val))
  | .readFramebuffer => .next (u, .framebuffer u.state.fb)
  | .readStatus => .next (u, .status u.state.status)

/-- A sequence of transactions, in order (R65, R241). -/
def runTransactions : List Transaction → Session → Host.Outcome Session Fault Refusal
  | [], u => .next u
  | t :: ts, u =>
    match transact t u with
    | .next (u', _) => runTransactions ts u'
    | .fault r => .fault r
    | .refused r => .refused r

/-- One `LoadByte` per byte of the image, from address `a` upward (R262). -/
def loadImage (a : Nat) : List Byte → List Transaction
  | [] => []
  | b :: bs => .loadByte a b :: loadImage (a + 1) bs

/-- Boot, steps 1 and 2 of R262: `Reset`, then the image from PROG_BASE. A longer image than MAX_IMAGE does not start
(R263). -/
def boot (image : List Byte) (u : Session) : Host.Outcome Session Fault Refusal :=
  if image.length > Config.maxImage then .refused .imageTooLong
  else runTransactions (.reset :: loadImage Config.progBase image) u

end Sys2Proof.Machine
end

