-- ==== Sys2Proof/Safety.lean ====
section
/-! DEFINITION. The terms statements are made in: frames, the machine's invariant, the faults the spec expects, and the two
ends of a run. Nothing here is called by the step. -/

namespace Sys2Proof.Safety

open Sys2Proof.Machine

/-! ### Frames -/

/-- The elements of the state tuple (R20). -/
inductive Part where
  | v | i | pc | stack | timer | keys | fb | mem | fault
  deriving DecidableEq, Repr

/-- Two states agree on an element; on memory and on the display, byte by byte and pixel by pixel as they are read. -/
def Part.same (s t : State) : Part → Prop
  | .v => ∀ r, t.readV r = s.readV r
  | .i => t.i = s.i
  | .pc => t.pc = s.pc
  | .stack => t.stack = s.stack
  | .timer => t.timer = s.timer
  | .keys => t.keys = s.keys
  | .fb => ∀ x y, t.fb.pixel x y = s.fb.pixel x y
  | .mem => ∀ a, t.mem.read a = s.mem.read a
  | .fault => t.fault = s.fault

/-- From `s` to `t` only the listed elements may have changed. -/
def OnlyChanges (parts : List Part) (s t : State) : Prop :=
  ∀ p, p ∉ parts → p.same s t

/-- The elements an instruction's rule writes when it does not fault (R21, R24, R25, R27, R28, R30). -/
def writes : Instr → List Part
  | .cls => [.fb, .pc]
  | .ret => [.stack, .pc]
  | .jp _ => [.pc]
  | .call _ => [.stack, .pc]
  | .seImm _ _ => [.pc]
  | .ldImm _ _ => [.v, .pc]
  | .addImm _ _ => [.v, .pc]
  | .ldReg _ _ => [.v, .pc]
  | .andReg _ _ => [.v, .pc]
  | .xorReg _ _ => [.v, .pc]
  | .addReg _ _ => [.v, .pc]
  | .sub _ _ => [.v, .pc]
  | .shr _ _ => [.v, .pc]
  | .ldI _ => [.i, .pc]
  | .drw _ _ _ => [.fb, .v, .pc]
  | .skp _ => [.pc]
  | .sknp _ => [.pc]
  | .ldVDt _ => [.v, .pc]
  | .ldDtV _ => [.timer, .pc]
  | .addI _ => [.i, .pc]
  | .ldVMem _ => [.v, .pc]

/-- The general registers an instruction's rule writes, VF's side effects among them (R22). -/
def destinations : Instr → RegIdx → Prop
  | .ldImm x _, r => r = x
  | .addImm x _, r => r = x
  | .ldReg x _, r => r = x
  | .andReg x _, r => r = x
  | .xorReg x _, r => r = x
  | .addReg x _, r => r = x ∨ r = 0xF
  | .sub x _, r => r = x ∨ r = 0xF
  | .shr x y, r => r = x ∨ r = y ∨ r = 0xF
  | .drw _ _ _, r => r = 0xF
  | .ldVDt x, r => r = x
  | .ldVMem x, r => r.toNat ≤ x.toNat
  | .cls, _ => False
  | .ret, _ => False
  | .jp _, _ => False
  | .call _, _ => False
  | .seImm _ _, _ => False
  | .ldI _, _ => False
  | .skp _, _ => False
  | .sknp _, _ => False
  | .ldDtV _, _ => False
  | .addI _, _ => False

/-- `pc` moves on by `k`, as a natural number; nothing is said where the sum needs more than 16 bits, which no run reaches
(R26, R90). -/
def AdvancesBy (k : Nat) (s t : State) : Prop :=
  s.pc.toNat + k < 65536 → t.pc.toNat = s.pc.toNat + k

/-! ### Encodings -/

/-- The encoding line of an instruction's rule: its word, its mask and match, and that the word decodes back to it. -/
def EncodedAs (i : Instr) (word mask pattern : Word) : Prop :=
  encode i = word ∧ word &&& mask = pattern ∧ decodeWord word = .ok i

/-! ### Faults the spec expects -/

/-- The execute fault R228 reports for an instruction, if any: R222, R226, R223, R221, R227, R224, each in its closed form
rather than as the operations raise it. -/
def expectedFault (i : Instr) (s : State) : Option FaultKind :=
  match i with
  | .ret => if s.stack = [] then some .stackUnderflow else none
  | .jp nnn => if nnn.toNat % 2 = 1 then some (.misalignedTarget (BitVec.ofNat 16 nnn.toNat)) else none
  | .call nnn =>
    if nnn.toNat % 2 = 1 then some (.misalignedTarget (BitVec.ofNat 16 nnn.toNat))
    else if s.stack.length = 16 then some (.stackOverflow 16)
    else none
  | .drw x y n =>
    if 1 ≤ n.toNat ∧ s.i.toNat + n.toNat - 1 ≥ 4096 then some (.outOfBounds (max s.i.toNat 4096))
    else if 1 ≤ n.toNat ∧ ((s.readV x).toNat + 7 > 63 ∨ (s.readV y).toNat + n.toNat - 1 > 31) then
      some (.displayOutOfRange (s.readV x) (s.readV y) n.toNat)
    else none
  | .skp x => if (s.readV x).toNat > 15 then some (.invalidKey (s.readV x)) else none
  | .sknp x => if (s.readV x).toNat > 15 then some (.invalidKey (s.readV x)) else none
  | .ldVMem x => if s.i.toNat + x.toNat ≥ 4096 then some (.outOfBounds (max s.i.toNat 4096)) else none
  | .cls => none
  | .seImm _ _ => none
  | .ldImm _ _ => none
  | .addImm _ _ => none
  | .ldReg _ _ => none
  | .andReg _ _ => none
  | .xorReg _ _ => none
  | .addReg _ _ => none
  | .sub _ _ => none
  | .shr _ _ => none
  | .ldI _ => none
  | .ldVDt _ => none
  | .ldDtV _ => none
  | .addI _ => none

/-- The instruction raises the fault `k` and its step's only write is the latch: the kind, the address and the word (R91). -/
def FaultsWith (i : Instr) (k : FaultKind) (s : State) : Prop :=
  exec i s = .next { s with fault := some { kind := k, pc := s.pc, opcode := some (encode i) } }

/-- The bit that `Dxyn`'s sprite has above pixel (X, Y): the sprite's row r is the byte at `I + r`, and bit `7 - c` of it goes
to column `px + c`, row `py + r` (R59, R181); no bit outside the 8 x n block. -/
def spriteBit (s : State) (px py n X Y : Nat) : Bool :=
  decide (px ≤ X ∧ X < px + 8 ∧ py ≤ Y ∧ Y < py + n) && (s.mem.read (s.i.toNat + (Y - py))).getLsbD (7 - (X - px))

/-- The word in memory at `pc`, its first byte the more significant (R56). -/
def wordAtPc (s : State) : Word :=
  BitVec.ofNat 16 ((s.mem.read s.pc.toNat).toNat * 256 + (s.mem.read (s.pc.toNat + 1)).toNat)

/-- The record a step of an unfaulted machine latches, if any, in R228's order: the fetch, the decode, the instruction. -/
def expectedRecord (s : State) : Option FaultRecord :=
  if s.pc.toNat ≥ 4096 then some ⟨.outOfBounds s.pc.toNat, s.pc, none⟩
  else if s.pc.toNat + 1 ≥ 4096 then some ⟨.outOfBounds (s.pc.toNat + 1), s.pc, none⟩
  else
    match decodeWord (wordAtPc s) with
    | .error _ => some ⟨.unknownOpcode, s.pc, some (wordAtPc s)⟩
    | .ok i => (expectedFault i s).map fun k => ⟨k, s.pc, some (wordAtPc s)⟩

/-! ### The invariant -/

/-- An even address of at most `top`. -/
abbrev EvenUpTo (top : Nat) (w : Word) : Prop :=
  w.toNat % 2 = 0 ∧ w.toNat ≤ top

/-- The invariant of the machine: memory in its canonical form, at most STACK_DEPTH return addresses, each even and at most
0x1000 (R27, R110), and `pc` even and at most 0x1002 (R26, R57). -/
abbrev StateInv (s : State) : Prop :=
  s.mem.wf ∧ s.stack.length ≤ Config.stackDepth ∧ (∀ w ∈ s.stack, EvenUpTo 0x1000 w) ∧ EvenUpTo 0x1002 s.pc

/-! ### The two ends of a run (R266) -/

/-- The run stopped at a fault. -/
abbrev Faulted (s : State) : Prop :=
  s.fault ≠ none

/-- No fault, and the word at `pc` is a jump to itself. -/
abbrev Parked (s : State) : Prop :=
  s.fault = none ∧ s.pc.toNat + 1 < Config.memSize ∧ wordAtPc s = 0x1000#16 ||| s.pc

end Sys2Proof.Safety
end

