-- ==== Sys2Proof/Certificates/Slice0/Obligations.lean ====
section
/-! DEFINITION. The statements for the provers, from the numbered rules of spec/. Registers are read one by one, memory byte
by byte and the display pixel by pixel, and arithmetic is on natural numbers as spec/00_scope.md R17 writes it. -/

open Sys2Proof Sys2Proof.Machine Sys2Proof.Safety

/-! ### Decoding and encoding -/

/-- Decoding the word, or the bytes, of any well-formed instruction gives it back, and leaves the bytes after it
(30_encoding.md section 2; R80's two bytes). -/
def Obligations.DecodeOfEncodeIsIdentity : Prop :=
  ∀ i : Instr, i.WellFormed = true →
    decodeWord (encode i) = .ok i ∧ ∀ rest, decodeBytes (encodeBytes i ++ rest) = .ok (i, rest)

/-- A word that decodes to an instruction is the word of that instruction: no bit of an encoding is ignored
(30_encoding.md section 2). -/
def Obligations.DecodedWordIsTheEncoding : Prop :=
  ∀ (op : Word) (i : Instr), decodeWord op = .ok i → encode i = op

/-- R83: a word is a row's instruction exactly when `op & mask = match`, and its operands are the fields of R81, each read
off the word as a number. -/
def Obligations.WordIsItsRowWhenMasked : Prop :=
  ∀ op : Word,
    (decodeWord op = .ok .cls ↔ op &&& 0xFFFF = 0x00E0) ∧
    (decodeWord op = .ok .ret ↔ op &&& 0xFFFF = 0x00EE) ∧
    (∀ nnn : Addr12, decodeWord op = .ok (.jp nnn) ↔ op &&& 0xF000 = 0x1000 ∧ nnn.toNat = op.toNat % 4096) ∧
    (∀ nnn : Addr12, decodeWord op = .ok (.call nnn) ↔ op &&& 0xF000 = 0x2000 ∧ nnn.toNat = op.toNat % 4096) ∧
    (∀ (x : RegIdx) (kk : Byte), decodeWord op = .ok (.seImm x kk) ↔
      op &&& 0xF000 = 0x3000 ∧ x.toNat = op.toNat / 256 % 16 ∧ kk.toNat = op.toNat % 256) ∧
    (∀ (x : RegIdx) (kk : Byte), decodeWord op = .ok (.ldImm x kk) ↔
      op &&& 0xF000 = 0x6000 ∧ x.toNat = op.toNat / 256 % 16 ∧ kk.toNat = op.toNat % 256) ∧
    (∀ (x : RegIdx) (kk : Byte), decodeWord op = .ok (.addImm x kk) ↔
      op &&& 0xF000 = 0x7000 ∧ x.toNat = op.toNat / 256 % 16 ∧ kk.toNat = op.toNat % 256) ∧
    (∀ x y : RegIdx, decodeWord op = .ok (.ldReg x y) ↔
      op &&& 0xF00F = 0x8000 ∧ x.toNat = op.toNat / 256 % 16 ∧ y.toNat = op.toNat / 16 % 16) ∧
    (∀ x y : RegIdx, decodeWord op = .ok (.andReg x y) ↔
      op &&& 0xF00F = 0x8002 ∧ x.toNat = op.toNat / 256 % 16 ∧ y.toNat = op.toNat / 16 % 16) ∧
    (∀ x y : RegIdx, decodeWord op = .ok (.xorReg x y) ↔
      op &&& 0xF00F = 0x8003 ∧ x.toNat = op.toNat / 256 % 16 ∧ y.toNat = op.toNat / 16 % 16) ∧
    (∀ x y : RegIdx, decodeWord op = .ok (.addReg x y) ↔
      op &&& 0xF00F = 0x8004 ∧ x.toNat = op.toNat / 256 % 16 ∧ y.toNat = op.toNat / 16 % 16) ∧
    (∀ x y : RegIdx, decodeWord op = .ok (.sub x y) ↔
      op &&& 0xF00F = 0x8005 ∧ x.toNat = op.toNat / 256 % 16 ∧ y.toNat = op.toNat / 16 % 16) ∧
    (∀ x y : RegIdx, decodeWord op = .ok (.shr x y) ↔
      op &&& 0xF00F = 0x8006 ∧ x.toNat = op.toNat / 256 % 16 ∧ y.toNat = op.toNat / 16 % 16) ∧
    (∀ nnn : Addr12, decodeWord op = .ok (.ldI nnn) ↔ op &&& 0xF000 = 0xA000 ∧ nnn.toNat = op.toNat % 4096) ∧
    (∀ (x y : RegIdx) (n : Nibble), decodeWord op = .ok (.drw x y n) ↔
      op &&& 0xF000 = 0xD000 ∧ x.toNat = op.toNat / 256 % 16 ∧ y.toNat = op.toNat / 16 % 16 ∧ n.toNat = op.toNat % 16) ∧
    (∀ x : RegIdx, decodeWord op = .ok (.skp x) ↔ op &&& 0xF0FF = 0xE09E ∧ x.toNat = op.toNat / 256 % 16) ∧
    (∀ x : RegIdx, decodeWord op = .ok (.sknp x) ↔ op &&& 0xF0FF = 0xE0A1 ∧ x.toNat = op.toNat / 256 % 16) ∧
    (∀ x : RegIdx, decodeWord op = .ok (.ldVDt x) ↔ op &&& 0xF0FF = 0xF007 ∧ x.toNat = op.toNat / 256 % 16) ∧
    (∀ x : RegIdx, decodeWord op = .ok (.ldDtV x) ↔ op &&& 0xF0FF = 0xF015 ∧ x.toNat = op.toNat / 256 % 16) ∧
    (∀ x : RegIdx, decodeWord op = .ok (.addI x) ↔ op &&& 0xF0FF = 0xF01E ∧ x.toNat = op.toNat / 256 % 16) ∧
    (∀ x : RegIdx, decodeWord op = .ok (.ldVMem x) ↔ op &&& 0xF0FF = 0xF065 ∧ x.toNat = op.toNat / 256 % 16)

/-- The words the decoder rejects, by name, are exactly those R85 lists family by family (its count of them is left out). -/
def Obligations.IllegalWordsAreRejected : Prop :=
  ∀ op : Word,
    decodeWord op = .error (.unknownOpcode op) ↔
      (op.toNat / 4096 = 0 ∧ op ≠ 0x00E0 ∧ op ≠ 0x00EE) ∨
      op.toNat / 4096 = 4 ∨ op.toNat / 4096 = 5 ∨ op.toNat / 4096 = 9 ∨ op.toNat / 4096 = 11 ∨ op.toNat / 4096 = 12 ∨
      (op.toNat / 4096 = 8 ∧ (op.toNat % 16 = 1 ∨ 7 ≤ op.toNat % 16)) ∨
      (op.toNat / 4096 = 14 ∧ op.toNat % 256 ≠ 0x9E ∧ op.toNat % 256 ≠ 0xA1) ∨
      (op.toNat / 4096 = 15 ∧ op.toNat % 256 ≠ 0x07 ∧ op.toNat % 256 ≠ 0x15 ∧ op.toNat % 256 ≠ 0x1E ∧
        op.toNat % 256 ≠ 0x65)

/-- A few words written out from the encodings decode to what they stand for (95_test_vectors.md T1, and the fetch byte
order below it). A sanity check. -/
def Obligations.SampleWordsDecode : Prop :=
  decodeWord 0xD123 = .ok (.drw 1 2 3) ∧
  decodeWord 0x8AB5 = .ok (.sub 0xA 0xB) ∧
  decodeWord 0x00EE = .ok .ret ∧
  decodeWord 0xE5A1 = .ok (.sknp 5) ∧
  decodeWord 0xF165 = .ok (.ldVMem 1) ∧
  decodeBytes [0x12, 0x34] = .ok (.jp 0x234, []) ∧
  decodeWord 0x8AB1 = .error (.unknownOpcode 0x8AB1)

/-! ### The step -/

/-- R89: the step's four ways. It changes nothing while a fault is latched; a fetch past memory, or a word that is no
instruction, latches its fault and writes nothing else; otherwise the step is `exec` of the decoded instruction, and nothing
is added around it. A `Step` transaction that latches no fault returns ok. -/
def Obligations.StepRunsTheDecodedInstruction : Prop :=
  ∀ s : State,
    (s.fault ≠ none → step s = .next s) ∧
    (s.fault = none → s.pc.toNat ≥ 4096 →
      step s = .next { s with fault := some ⟨.outOfBounds s.pc.toNat, s.pc, none⟩ }) ∧
    (s.fault = none → s.pc.toNat = 4095 →
      step s = .next { s with fault := some ⟨.outOfBounds 4096, s.pc, none⟩ }) ∧
    (s.fault = none → s.pc.toNat + 1 < 4096 →
      (∀ e, decodeWord (wordAtPc s) = .error e →
        step s = .next { s with fault := some ⟨.unknownOpcode, s.pc, some (wordAtPc s)⟩ }) ∧
      (∀ i, decodeWord (wordAtPc s) = .ok i → step s = exec i s)) ∧
    (∀ (ph : Phase) (t : State), step s = .next t → t.fault = none →
      transact .step { phase := ph, state := s } = .next ({ phase := .running, state := t }, .ok))

/-- R92: while a fault is latched, a `Step` transaction changes nothing and returns the latched record. -/
def Obligations.FaultedMachineIgnoresStep : Prop :=
  ∀ (u : Session) (r : FaultRecord), u.state.fault = some r →
    step u.state = .next u.state ∧
    transact .step u = .next ({ phase := .running, state := u.state }, .faulted r)

/-- R91: a step that raises a fault writes only the latch, with the address fetched from and the fetched word (absent when
the fetch faulted); the fault is the one R228 chooses, and the `Step` transaction returns it. -/
def Obligations.FaultingStepWritesOnlyTheLatch : Prop :=
  ∀ (s t : State) (r : FaultRecord), s.fault = none → step s = .next t → t.fault = some r →
    t = { s with fault := some r } ∧ r.pc = s.pc ∧
    r.opcode = (if s.pc.toNat + 1 < 4096 then some (wordAtPc s) else none) ∧
    expectedRecord s = some r ∧
    ∀ ph, transact .step { phase := ph, state := s } = .next ({ phase := .running, state := t }, .faulted r)

/-- R228, for every state with no fault latched: the step goes on, and latches exactly the fault that comes first in the
rule's order, or none. `expectedRecord` states each condition in closed form (R221 to R227). -/
def Obligations.StepFaultsInPriorityOrder : Prop :=
  ∀ s : State, s.fault = none → ∃ t, step s = .next t ∧ t.fault = expectedRecord s

/-- R225: a word that matches no row raises `UnknownOpcode`, code 5, whose record carries the opcode and `pc`. -/
def Obligations.UnmatchedWordRaisesUnknownOpcode : Prop :=
  ∀ s : State, s.fault = none → s.pc.toNat + 1 < 4096 →
    (∀ r ∈ opcodeTable, wordAtPc s &&& r.mask ≠ r.pattern) →
    step s = .next { s with fault := some ⟨.unknownOpcode, s.pc, some (wordAtPc s)⟩ } ∧
    FaultRecord.code ⟨.unknownOpcode, s.pc, some (wordAtPc s)⟩ = 5

/-- No instruction stops the model: from every state each one answers a next state, with the latch unchanged, or with only
its fault latched (10_state.md section 3, 60_exceptions.md section 1). The effects are in the instructions' own statements. -/
def Obligations.EveryInstructionAnswersANextState : Prop :=
  ∀ (i : Instr) (s : State), ∃ t, exec i s = .next t ∧
    (expectedFault i s = none → t.fault = s.fault) ∧
    (∀ k, expectedFault i s = some k → t = { s with fault := some ⟨k, s.pc, some (encode i)⟩ })

/-! ### Invariants -/

/-- The reset state meets the invariant. -/
def Obligations.ResetMeetsTheInvariant : Prop :=
  StateInv State.reset

/-- Every step keeps the invariant: memory canonical, at most 16 return addresses, each even and at most 0x1000, `pc` even
and at most 0x1002 (10_state.md section 3; 20_memory.md section 3: "Every other write of `pc` keeps it even", which the spec
marks as derived). -/
def Obligations.StepKeepsTheInvariant : Prop :=
  ∀ s t : State, StateInv s → step s = .next t → StateInv t

/-- Every host transaction keeps the invariant (60_exceptions.md section 4). -/
def Obligations.TransactionsKeepTheInvariant : Prop :=
  ∀ (t : Transaction) (u u' : Session) (r : Response), StateInv u.state → transact t u = .next (u', r) → StateInv u'.state

/-- R230: a latched fault stays, the same, through any transactions but `Reset`, and the registers, `I`, `pc`, the stack and
the display stay with it; every `Step` returns it; and a fault taken later never replaces it. R32: `Reset` clears it. -/
def Obligations.LatchedFaultStaysUntilReset : Prop :=
  (∀ (ts : List Transaction) (u u' : Session) (r : FaultRecord), .reset ∉ ts → u.state.fault = some r →
    runTransactions ts u = .next u' →
      u'.state.fault = some r ∧ OnlyChanges [.timer, .keys, .mem] u.state u'.state ∧
      transact .step u' = .next ({ phase := .running, state := u'.state }, .faulted r)) ∧
  (∀ u, ∃ u', transact .reset u = .next (u', .none) ∧ u'.state.fault = none)

/-! ### What instructions may write and read -/

/-- An instruction that does not fault writes only the elements its rule names; one that faults writes only the latch
(10_state.md sections 2 to 6). -/
def Obligations.InstructionsWriteOnlyTheirElements : Prop :=
  ∀ (i : Instr) (s t : State), exec i s = .next t →
    (expectedFault i s = none → OnlyChanges (writes i) s t) ∧
    (expectedFault i s ≠ none → OnlyChanges [.fault] s t)

/-- An instruction changes no general register but those its rule writes, VF's side effects among them (10_state.md section
2). -/
def Obligations.OtherRegistersAreUnchanged : Prop :=
  ∀ (i : Instr) (s t : State) (r : RegIdx), exec i s = .next t → ¬ destinations i r → t.readV r = s.readV r

/-- VF changes only by the four instructions that write it as a flag, or as a named destination (10_state.md section 2,
"The instructions that write VF as a side effect are exactly these four"). -/
def Obligations.FlagRegisterWriters : Prop :=
  ∀ (i : Instr) (s t : State), exec i s = .next t → t.readV 0xF ≠ s.readV 0xF →
    (∃ x y, i = .addReg x y) ∨ (∃ x y, i = .sub x y) ∨ (∃ x y, i = .shr x y) ∨ (∃ x y n, i = .drw x y n) ∨
    (∃ kk, i = .ldImm 0xF kk) ∨ (∃ kk, i = .addImm 0xF kk) ∨ (∃ y, i = .ldReg 0xF y) ∨ (∃ y, i = .andReg 0xF y) ∨
    (∃ y, i = .xorReg 0xF y) ∨ i = .ldVDt 0xF ∨ i = .ldVMem 0xF

/-- No step changes any byte of memory, so no program changes its own code (20_memory.md section 1, "No instruction writes
memory"). -/
def Obligations.StepWritesNoMemory : Prop :=
  ∀ s t : State, step s = .next t → t.mem = s.mem ∧ ∀ a, t.mem.read a = s.mem.read a

/-- What an instruction can observe: only SKP and SKNP see the keys; only LD_V_DT sees the timer, and LD_DT_V replaces it;
only DRW sees the display, and CLS replaces it (10_state.md section 5). -/
def Obligations.DevicesAreSeenOnlyByTheirInstructions : Prop :=
  (∀ (i : Instr) (s t : State) (ks : Vector Bool 16), (∀ x, i ≠ .skp x) → (∀ x, i ≠ .sknp x) →
    exec i s = .next t → exec i { s with keys := ks } = .next { t with keys := ks }) ∧
  (∀ (i : Instr) (s t : State) (b : Byte), (∀ x, i ≠ .ldVDt x) → (∀ x, i ≠ .ldDtV x) →
    exec i s = .next t → exec i { s with timer := b } = .next { t with timer := b }) ∧
  (∀ (x : RegIdx) (s : State) (b : Byte), exec (.ldDtV x) { s with timer := b } = exec (.ldDtV x) s) ∧
  (∀ (i : Instr) (s t : State) (f : Framebuffer), (∀ x y n, i ≠ .drw x y n) → i ≠ .cls →
    exec i s = .next t → exec i { s with fb := f } = .next { t with fb := f }) ∧
  (∀ (s : State) (f : Framebuffer), exec .cls { s with fb := f } = exec .cls s)

/-! ### Control flow -/

/-- R110: RET pops the top entry into `pc`; on the empty stack it faults. -/
def Obligations.RetPopsTheTopEntry : Prop :=
  EncodedAs .ret 0x00EE 0xFFFF 0x00EE ∧
  (∀ (s : State) (rest : List Word) (a : Word), s.stack = rest ++ [a] →
    ∃ t, exec .ret s = .next t ∧ t.pc = a ∧ t.stack = rest ∧ OnlyChanges [.pc, .stack] s t) ∧
  (∀ s : State, s.stack = [] → FaultsWith .ret .stackUnderflow s)

/-- R111: JP sets `pc` to an even target; an odd one faults. -/
def Obligations.JpGoesToEvenTargets : Prop :=
  ∀ nnn : Addr12,
    EncodedAs (.jp nnn) (0x1000#16 ||| nnn.setWidth 16) 0xF000 0x1000 ∧
    (nnn.toNat % 2 = 0 → ∀ s, ∃ t, exec (.jp nnn) s = .next t ∧ t.pc.toNat = nnn.toNat ∧ OnlyChanges [.pc] s t) ∧
    (nnn.toNat % 2 = 1 → ∀ s, FaultsWith (.jp nnn) (.misalignedTarget (nnn.setWidth 16)) s)

/-- R112: CALL pushes the address after it and goes to an even target; an odd target faults first, then a full stack. -/
def Obligations.CallPushesAndGoes : Prop :=
  ∀ nnn : Addr12,
    EncodedAs (.call nnn) (0x2000#16 ||| nnn.setWidth 16) 0xF000 0x2000 ∧
    (nnn.toNat % 2 = 0 → ∀ s : State, s.stack.length < 16 →
      ∃ t a, exec (.call nnn) s = .next t ∧ t.stack = s.stack ++ [a] ∧
        (s.pc.toNat + 2 < 65536 → a.toNat = s.pc.toNat + 2) ∧
        t.pc.toNat = nnn.toNat ∧ OnlyChanges [.pc, .stack] s t) ∧
    (nnn.toNat % 2 = 1 → ∀ s, FaultsWith (.call nnn) (.misalignedTarget (nnn.setWidth 16)) s) ∧
    (nnn.toNat % 2 = 0 → ∀ s : State, s.stack.length = 16 → FaultsWith (.call nnn) (.stackOverflow 16) s)

/-- A call and then a return come back to the address after the call, with the stack as it was and nothing else changed
(95_test_vectors.md part 1, S5). -/
def Obligations.CallThenRetComesBack : Prop :=
  ∀ (s : State) (nnn : Addr12), nnn.toNat % 2 = 0 → s.stack.length < 16 →
    ∃ t u, exec (.call nnn) s = .next t ∧ exec .ret t = .next u ∧ AdvancesBy 2 s u ∧ OnlyChanges [.pc] s u

/-- R113: SE skips when the register equals the immediate. That R113 stands beside R21's list, which leaves its file out, is log
entry 6. -/
def Obligations.SeSkipsOnEqual : Prop :=
  ∀ (x : RegIdx) (kk : Byte),
    EncodedAs (.seImm x kk) (0x3000#16 ||| (x.setWidth 16 <<< 8) ||| kk.setWidth 16) 0xF000 0x3000 ∧
    ∀ s, ∃ t, exec (.seImm x kk) s = .next t ∧
      ((s.readV x).toNat = kk.toNat → AdvancesBy 4 s t) ∧
      ((s.readV x).toNat ≠ kk.toNat → AdvancesBy 2 s t) ∧ OnlyChanges [.pc] s t

/-! ### Registers and arithmetic -/

/-- R131: LD Vx, kk. -/
def Obligations.LdImmLoadsTheImmediate : Prop :=
  ∀ (x : RegIdx) (kk : Byte),
    EncodedAs (.ldImm x kk) (0x6000#16 ||| (x.setWidth 16 <<< 8) ||| kk.setWidth 16) 0xF000 0x6000 ∧
    ∀ s, ∃ t, exec (.ldImm x kk) s = .next t ∧ t.readV x = kk ∧ (∀ r, r ≠ x → t.readV r = s.readV r) ∧
      AdvancesBy 2 s t ∧ OnlyChanges [.v, .pc] s t

/-- R132: ADD Vx, kk wraps modulo 256 and leaves VF alone unless it is the destination. -/
def Obligations.AddImmWrapsWithoutFlag : Prop :=
  ∀ (x : RegIdx) (kk : Byte),
    EncodedAs (.addImm x kk) (0x7000#16 ||| (x.setWidth 16 <<< 8) ||| kk.setWidth 16) 0xF000 0x7000 ∧
    ∀ s, ∃ t, exec (.addImm x kk) s = .next t ∧
      (t.readV x).toNat = ((s.readV x).toNat + kk.toNat) % 256 ∧ (∀ r, r ≠ x → t.readV r = s.readV r) ∧
      AdvancesBy 2 s t ∧ OnlyChanges [.v, .pc] s t

/-- R133: LD Vx, Vy copies. -/
def Obligations.LdRegCopies : Prop :=
  ∀ x y : RegIdx,
    EncodedAs (.ldReg x y) (0x8000#16 ||| (x.setWidth 16 <<< 8) ||| (y.setWidth 16 <<< 4)) 0xF00F 0x8000 ∧
    ∀ s, ∃ t, exec (.ldReg x y) s = .next t ∧ t.readV x = s.readV y ∧ (∀ r, r ≠ x → t.readV r = s.readV r) ∧
      AdvancesBy 2 s t ∧ OnlyChanges [.v, .pc] s t

/-- R134 and R135: AND and XOR, bit by bit; VF is written only as the destination. -/
def Obligations.AndXorAreBitwise : Prop :=
  ∀ x y : RegIdx,
    EncodedAs (.andReg x y) (0x8002#16 ||| (x.setWidth 16 <<< 8) ||| (y.setWidth 16 <<< 4)) 0xF00F 0x8002 ∧
    EncodedAs (.xorReg x y) (0x8003#16 ||| (x.setWidth 16 <<< 8) ||| (y.setWidth 16 <<< 4)) 0xF00F 0x8003 ∧
    (∀ s, ∃ t, exec (.andReg x y) s = .next t ∧
      (∀ k, (t.readV x).getLsbD k = ((s.readV x).getLsbD k && (s.readV y).getLsbD k)) ∧
      (∀ r, r ≠ x → t.readV r = s.readV r) ∧ AdvancesBy 2 s t ∧ OnlyChanges [.v, .pc] s t) ∧
    (∀ s, ∃ t, exec (.xorReg x y) s = .next t ∧
      (∀ k, (t.readV x).getLsbD k = ((s.readV x).getLsbD k ^^ (s.readV y).getLsbD k)) ∧
      (∀ r, r ≠ x → t.readV r = s.readV r) ∧ AdvancesBy 2 s t ∧ OnlyChanges [.v, .pc] s t)

/-- R136: ADD Vx, Vy; the carry goes to VF, last. -/
def Obligations.AddRegSumsAndCarries : Prop :=
  ∀ x y : RegIdx,
    EncodedAs (.addReg x y) (0x8004#16 ||| (x.setWidth 16 <<< 8) ||| (y.setWidth 16 <<< 4)) 0xF00F 0x8004 ∧
    ∀ s, ∃ t, exec (.addReg x y) s = .next t ∧
      (x ≠ 0xF → (t.readV x).toNat = ((s.readV x).toNat + (s.readV y).toNat) % 256) ∧
      (t.readV 0xF).toNat = (if (s.readV x).toNat + (s.readV y).toNat > 255 then 1 else 0) ∧
      (∀ r, r ≠ x → r ≠ 0xF → t.readV r = s.readV r) ∧ AdvancesBy 2 s t ∧ OnlyChanges [.v, .pc] s t

/-- R137: SUB Vx, Vy; VF is 1 on a borrow, else 0, last. The difference is the one number of 0..255 that gives Vx back when
Vy is added modulo 256. -/
def Obligations.SubSubtractsAndBorrows : Prop :=
  ∀ x y : RegIdx,
    EncodedAs (.sub x y) (0x8005#16 ||| (x.setWidth 16 <<< 8) ||| (y.setWidth 16 <<< 4)) 0xF00F 0x8005 ∧
    ∀ s, ∃ t, exec (.sub x y) s = .next t ∧
      (x ≠ 0xF → ((t.readV x).toNat + (s.readV y).toNat) % 256 = (s.readV x).toNat) ∧
      (t.readV 0xF).toNat = (if (s.readV x).toNat < (s.readV y).toNat then 1 else 0) ∧
      (∀ r, r ≠ x → r ≠ 0xF → t.readV r = s.readV r) ∧ AdvancesBy 2 s t ∧ OnlyChanges [.v, .pc] s t

/-- R138: SHR shifts Vy into both registers; its old low bit goes to VF, last. -/
def Obligations.ShrShiftsIntoBoth : Prop :=
  ∀ x y : RegIdx,
    EncodedAs (.shr x y) (0x8006#16 ||| (x.setWidth 16 <<< 8) ||| (y.setWidth 16 <<< 4)) 0xF00F 0x8006 ∧
    ∀ s, ∃ t, exec (.shr x y) s = .next t ∧
      (x ≠ 0xF → (t.readV x).toNat = (s.readV y).toNat / 2) ∧
      (y ≠ 0xF → (t.readV y).toNat = (s.readV y).toNat / 2) ∧
      (t.readV 0xF).toNat = (s.readV y).toNat % 2 ∧
      (∀ r, r ≠ x → r ≠ y → r ≠ 0xF → t.readV r = s.readV r) ∧ AdvancesBy 2 s t ∧ OnlyChanges [.v, .pc] s t

/-! ### Index register and memory loads -/

/-- R160: LD I, nnn. -/
def Obligations.LdISetsTheIndex : Prop :=
  ∀ nnn : Addr12,
    EncodedAs (.ldI nnn) (0xA000#16 ||| nnn.setWidth 16) 0xF000 0xA000 ∧
    ∀ s, ∃ t, exec (.ldI nnn) s = .next t ∧ t.i.toNat = nnn.toNat ∧ AdvancesBy 2 s t ∧ OnlyChanges [.i, .pc] s t

/-- R161: ADD I, Vx wraps at 16 bits, with no flag and no check. -/
def Obligations.AddIWrapsAtSixteenBits : Prop :=
  ∀ x : RegIdx,
    EncodedAs (.addI x) (0xF01E#16 ||| (x.setWidth 16 <<< 8)) 0xF0FF 0xF01E ∧
    ∀ s, ∃ t, exec (.addI x) s = .next t ∧ t.i.toNat = (s.i.toNat + (s.readV x).toNat) % 65536 ∧
      AdvancesBy 2 s t ∧ OnlyChanges [.i, .pc] s t

/-- R162: LD Vx, [I] loads V0..Vx from the bytes at I, leaving I and the other registers; when the last address is past
memory it faults with the lowest such address, and no register is written. -/
def Obligations.LdVMemLoadsTheRegisters : Prop :=
  ∀ x : RegIdx,
    EncodedAs (.ldVMem x) (0xF065#16 ||| (x.setWidth 16 <<< 8)) 0xF0FF 0xF065 ∧
    (∀ s : State, s.i.toNat + x.toNat < 4096 → ∃ t, exec (.ldVMem x) s = .next t ∧
      (∀ r : RegIdx, r.toNat ≤ x.toNat → t.readV r = s.mem.read (s.i.toNat + r.toNat)) ∧
      (∀ r : RegIdx, x.toNat < r.toNat → t.readV r = s.readV r) ∧
      AdvancesBy 2 s t ∧ OnlyChanges [.v, .pc] s t) ∧
    (∀ s : State, s.i.toNat + x.toNat ≥ 4096 → FaultsWith (.ldVMem x) (.outOfBounds (max s.i.toNat 4096)) s)

/-! ### Display -/

/-- R180: CLS clears every pixel. -/
def Obligations.ClsClearsEveryPixel : Prop :=
  EncodedAs .cls 0x00E0 0xFFFF 0x00E0 ∧
  ∀ s, ∃ t, exec .cls s = .next t ∧ (∀ x y, t.fb.pixel x y = false) ∧ AdvancesBy 2 s t ∧ OnlyChanges [.fb, .pc] s t

/-- R181 with R59: DRW on the grid, or of no row, XORs the sprite into the display, and VF says whether some set pixel was
under a 1 bit. A sprite read past memory faults; then a block off the grid. -/
def Obligations.DrwXorsTheSprite : Prop :=
  ∀ (x y : RegIdx) (n : Nibble),
    EncodedAs (.drw x y n) (0xD000#16 ||| (x.setWidth 16 <<< 8) ||| (y.setWidth 16 <<< 4) ||| n.setWidth 16) 0xF000 0xD000 ∧
    (∀ s : State,
      (n.toNat = 0 ∨ (s.i.toNat + n.toNat - 1 < 4096 ∧ (s.readV x).toNat + 7 ≤ 63 ∧
        (s.readV y).toNat + n.toNat - 1 ≤ 31)) →
      ∃ t, exec (.drw x y n) s = .next t ∧
        (∀ X Y, t.fb.pixel X Y =
          (s.fb.pixel X Y ^^ spriteBit s (s.readV x).toNat (s.readV y).toNat n.toNat X Y)) ∧
        ((∃ X Y, s.fb.pixel X Y = true ∧ t.fb.pixel X Y = false) → t.readV 0xF = 1) ∧
        ((¬ ∃ X Y, s.fb.pixel X Y = true ∧ t.fb.pixel X Y = false) → t.readV 0xF = 0) ∧
        (∀ r, r ≠ 0xF → t.readV r = s.readV r) ∧ AdvancesBy 2 s t ∧ OnlyChanges [.fb, .v, .pc] s t) ∧
    (∀ s : State, 1 ≤ n.toNat → s.i.toNat + n.toNat - 1 ≥ 4096 →
      FaultsWith (.drw x y n) (.outOfBounds (max s.i.toNat 4096)) s) ∧
    (∀ s : State, 1 ≤ n.toNat → s.i.toNat + n.toNat - 1 < 4096 →
      (s.readV x).toNat + 7 > 63 ∨ (s.readV y).toNat + n.toNat - 1 > 31 →
      FaultsWith (.drw x y n) (.displayOutOfRange (s.readV x) (s.readV y) n.toNat) s)

/-- Drawing the same sprite twice at the same place gives the display back, when the first draw leaves the coordinate
registers alone (x and y not VF) and `pc` is not read (95_test_vectors.md part 1, S6; 44_display.md "full XOR"). -/
def Obligations.DrawingTwiceRestoresTheDisplay : Prop :=
  ∀ (x y : RegIdx) (n : Nibble) (s t u : State), x ≠ 0xF → y ≠ 0xF → expectedFault (.drw x y n) s = none →
    exec (.drw x y n) s = .next t → exec (.drw x y n) t = .next u → ∀ X Y, u.fb.pixel X Y = s.fb.pixel X Y

/-! ### Keys and timer -/

/-- R200 and R201: SKP and SKNP sample the key numbered Vx; a number past 15 faults. -/
def Obligations.KeySkipsSampleTheKey : Prop :=
  ∀ x : RegIdx,
    EncodedAs (.skp x) (0xE09E#16 ||| (x.setWidth 16 <<< 8)) 0xF0FF 0xE09E ∧
    EncodedAs (.sknp x) (0xE0A1#16 ||| (x.setWidth 16 <<< 8)) 0xF0FF 0xE0A1 ∧
    (∀ (s : State) (h : (s.readV x).toNat < 16),
      (∃ t, exec (.skp x) s = .next t ∧ AdvancesBy (if s.keys[(s.readV x).toNat] then 4 else 2) s t ∧
        OnlyChanges [.pc] s t) ∧
      (∃ t, exec (.sknp x) s = .next t ∧ AdvancesBy (if s.keys[(s.readV x).toNat] then 2 else 4) s t ∧
        OnlyChanges [.pc] s t)) ∧
    (∀ s : State, (s.readV x).toNat > 15 →
      FaultsWith (.skp x) (.invalidKey (s.readV x)) s ∧ FaultsWith (.sknp x) (.invalidKey (s.readV x)) s)

/-- R202 and R203: LD Vx, DT reads the timer and LD DT, Vx sets it. -/
def Obligations.TimerIsReadAndSet : Prop :=
  ∀ x : RegIdx,
    EncodedAs (.ldVDt x) (0xF007#16 ||| (x.setWidth 16 <<< 8)) 0xF0FF 0xF007 ∧
    EncodedAs (.ldDtV x) (0xF015#16 ||| (x.setWidth 16 <<< 8)) 0xF0FF 0xF015 ∧
    (∀ s, ∃ t, exec (.ldVDt x) s = .next t ∧ t.readV x = s.timer ∧ (∀ r, r ≠ x → t.readV r = s.readV r) ∧
      AdvancesBy 2 s t ∧ OnlyChanges [.v, .pc] s t) ∧
    (∀ s, ∃ t, exec (.ldDtV x) s = .next t ∧ t.timer = s.readV x ∧ AdvancesBy 2 s t ∧ OnlyChanges [.timer, .pc] s t)

/-! ### The host's transactions -/

/-- R63: a tick takes one off the timer, floored at zero, changes nothing else and never fails, a fault latched or not; so
`n` ticks take `n` off (95_test_vectors.md part 1, S10). -/
def Obligations.TicksCountTheTimerDown : Prop :=
  (∀ u : Session, ∃ u', transact .tick u = .next (u', .none) ∧ u'.phase = u.phase ∧
    u'.state.timer.toNat = u.state.timer.toNat - 1 ∧ OnlyChanges [.timer] u.state u'.state) ∧
  (∀ (n : Nat) (u : Session), ∃ u', runTransactions (List.replicate n .tick) u = .next u' ∧
    u'.state.timer.toNat = u.state.timer.toNat - n ∧ OnlyChanges [.timer] u.state u'.state)

/-- R64: SetPressed sets one key; a key past 15 is a failure reported to the host, with no change and the latch untouched. -/
def Obligations.SetPressedSetsOneKey : Prop :=
  (∀ (u : Session) (k : Byte) (b : Bool) (hk : k.toNat < 16), ∃ u', transact (.setPressed k b) u = .next (u', .ok) ∧
    u'.phase = u.phase ∧ u'.state.keys[k.toNat] = b ∧
    (∀ j : Fin 16, j.val ≠ k.toNat → u'.state.keys[j] = u.state.keys[j]) ∧ OnlyChanges [.keys] u.state u'.state) ∧
  (∀ (u : Session) (k : Byte) (b : Bool), k.toNat > 15 →
    transact (.setPressed k b) u = .next (u, .failed (.invalidKey k)))

/-- LoadByte stores one byte, which every later read sees; an address past memory is a failure that changes nothing. That
the model refuses a LoadByte after the first Step by the name `loadNotAdmitted` is the model's choice (log entry 4) for "Host
writes are admitted only between reset and the first step" (20_memory.md section 1). -/
def Obligations.LoadByteStoresOneByte : Prop :=
  (∀ (s : State) (a : Nat) (b : Byte), s.mem.wf → a < 4096 →
    ∃ s', transact (.loadByte a b) { phase := .loading, state := s } = .next ({ phase := .loading, state := s' }, .ok) ∧
      s'.mem.read a = b ∧ (∀ c, c ≠ a → s'.mem.read c = s.mem.read c) ∧ OnlyChanges [.mem] s s') ∧
  (∀ (s : State) (a : Nat) (b : Byte), a ≥ 4096 →
    transact (.loadByte a b) { phase := .loading, state := s } =
      .next ({ phase := .loading, state := s }, .failed (.outOfBounds a))) ∧
  (∀ (s : State) (a : Nat) (b : Byte),
    transact (.loadByte a b) { phase := .running, state := s } = .refused .loadNotAdmitted)

/-- The read ports return what they name and change nothing (60_exceptions.md section 4). -/
def Obligations.ReadPortsChangeNothing : Prop :=
  ∀ u : Session,
    (∀ x y, transact (.readPixel x y) u = .next (u, .pixel (u.state.fb[y][x]))) ∧
    transact .readFramebuffer u = .next (u, .framebuffer u.state.fb) ∧
    ∃ st, transact .readStatus u = .next (u, .status st) ∧ st.fault = u.state.fault ∧ st.pc = u.state.pc ∧
      (∀ r : RegIdx, st.v[r.toNat]'r.isLt = u.state.readV r) ∧ st.i = u.state.i ∧ st.depth = u.state.stack.length ∧
      st.entries = u.state.stack ∧ st.timer = u.state.timer

/-- R260: from any session, Reset puts every element at its reset value. -/
def Obligations.ResetSetsEveryElement : Prop :=
  ∀ u : Session, ∃ u', transact .reset u = .next (u', .none) ∧ u'.state = State.reset ∧
    (∀ r, u'.state.readV r = 0) ∧ u'.state.i = 0 ∧ u'.state.pc = 0x200 ∧ u'.state.stack = [] ∧ u'.state.timer = 0 ∧
    (∀ k : Fin 16, u'.state.keys[k] = false) ∧ (∀ x y, u'.state.fb.pixel x y = false) ∧
    (∀ a, u'.state.mem.read a = 0) ∧ u'.state.fault = none

/-- Booting an image of at most 3584 bytes leaves its byte j at 0x200 + j, every other byte 0, and the rest of the state at
reset; a longer image does not start; and the first step after booting the empty image faults on the word 0x0000
(70_reset_and_hazards.md section 2; the last, the spec marks as derived). -/
def Obligations.BootPlacesTheImage : Prop :=
  (∀ (image : List Byte) (u : Session), image.length ≤ 3584 →
    ∃ s, boot image u = .next { phase := .loading, state := s } ∧
      (∀ a, s.mem.read a = if 0x200 ≤ a ∧ a < 0x200 + image.length then image.getD (a - 0x200) 0 else 0) ∧
      OnlyChanges [.mem] State.reset s) ∧
  (∀ (image : List Byte) (u : Session), image.length > 3584 → boot image u = .refused .imageTooLong) ∧
  (∀ u : Session, ∃ s, boot [] u = .next { phase := .loading, state := s } ∧
    step s = .next { s with fault := some ⟨.unknownOpcode, 0x200, some 0x0000⟩ })

/-- R266: a run that stopped at a fault, or is parked on a jump to itself, is left unchanged by every later step. For the
parked run `pc` is even, as in every state that meets the invariant. -/
def Obligations.EndedRunsStayAsTheyAre : Prop :=
  ∀ (s : State) (k : Nat), Faulted s ∨ (Parked s ∧ StateInv s) → core.run k s = .next s
end

