-- ==== Sys2Proof/Laws/State.lean ====
section
/-! SUPPORT. The small lemmas of the state's named updates: what each update leaves each field of `State`, so that no later
proof unfolds a record update. -/

namespace Sys2Proof.Machine

variable (s : State)

/-! ### `State.writeV` -/

@[simp] theorem State.writeV_i (x : RegIdx) (b : Byte) : (s.writeV x b).i = s.i := rfl
@[simp] theorem State.writeV_pc (x : RegIdx) (b : Byte) : (s.writeV x b).pc = s.pc := rfl
@[simp] theorem State.writeV_stack (x : RegIdx) (b : Byte) : (s.writeV x b).stack = s.stack := rfl
@[simp] theorem State.writeV_timer (x : RegIdx) (b : Byte) : (s.writeV x b).timer = s.timer := rfl
@[simp] theorem State.writeV_keys (x : RegIdx) (b : Byte) : (s.writeV x b).keys = s.keys := rfl
@[simp] theorem State.writeV_fb (x : RegIdx) (b : Byte) : (s.writeV x b).fb = s.fb := rfl
@[simp] theorem State.writeV_mem (x : RegIdx) (b : Byte) : (s.writeV x b).mem = s.mem := rfl
@[simp] theorem State.writeV_fault (x : RegIdx) (b : Byte) : (s.writeV x b).fault = s.fault := rfl

/-! ### `State.writeFlag` -/

@[simp] theorem State.writeFlag_i (b : Byte) : (s.writeFlag b).i = s.i := rfl
@[simp] theorem State.writeFlag_pc (b : Byte) : (s.writeFlag b).pc = s.pc := rfl
@[simp] theorem State.writeFlag_stack (b : Byte) : (s.writeFlag b).stack = s.stack := rfl
@[simp] theorem State.writeFlag_timer (b : Byte) : (s.writeFlag b).timer = s.timer := rfl
@[simp] theorem State.writeFlag_keys (b : Byte) : (s.writeFlag b).keys = s.keys := rfl
@[simp] theorem State.writeFlag_fb (b : Byte) : (s.writeFlag b).fb = s.fb := rfl
@[simp] theorem State.writeFlag_mem (b : Byte) : (s.writeFlag b).mem = s.mem := rfl
@[simp] theorem State.writeFlag_fault (b : Byte) : (s.writeFlag b).fault = s.fault := rfl

/-! ### `State.setI` -/

@[simp] theorem State.setI_v (w : Word) : (s.setI w).v = s.v := rfl
@[simp] theorem State.setI_i (w : Word) : (s.setI w).i = w := rfl
@[simp] theorem State.setI_pc (w : Word) : (s.setI w).pc = s.pc := rfl
@[simp] theorem State.setI_stack (w : Word) : (s.setI w).stack = s.stack := rfl
@[simp] theorem State.setI_timer (w : Word) : (s.setI w).timer = s.timer := rfl
@[simp] theorem State.setI_keys (w : Word) : (s.setI w).keys = s.keys := rfl
@[simp] theorem State.setI_fb (w : Word) : (s.setI w).fb = s.fb := rfl
@[simp] theorem State.setI_mem (w : Word) : (s.setI w).mem = s.mem := rfl
@[simp] theorem State.setI_fault (w : Word) : (s.setI w).fault = s.fault := rfl
@[simp] theorem State.setI_readV (w : Word) (r : RegIdx) : (s.setI w).readV r = s.readV r := rfl

/-! ### `State.setPc` -/

@[simp] theorem State.setPc_v (w : Word) : (s.setPc w).v = s.v := rfl
@[simp] theorem State.setPc_i (w : Word) : (s.setPc w).i = s.i := rfl
@[simp] theorem State.setPc_pc (w : Word) : (s.setPc w).pc = w := rfl
@[simp] theorem State.setPc_stack (w : Word) : (s.setPc w).stack = s.stack := rfl
@[simp] theorem State.setPc_timer (w : Word) : (s.setPc w).timer = s.timer := rfl
@[simp] theorem State.setPc_keys (w : Word) : (s.setPc w).keys = s.keys := rfl
@[simp] theorem State.setPc_fb (w : Word) : (s.setPc w).fb = s.fb := rfl
@[simp] theorem State.setPc_mem (w : Word) : (s.setPc w).mem = s.mem := rfl
@[simp] theorem State.setPc_fault (w : Word) : (s.setPc w).fault = s.fault := rfl
@[simp] theorem State.setPc_readV (w : Word) (r : RegIdx) : (s.setPc w).readV r = s.readV r := rfl

/-! ### `State.advance` -/

@[simp] theorem State.advance_v : (s.advance).v = s.v := rfl
@[simp] theorem State.advance_i : (s.advance).i = s.i := rfl
@[simp] theorem State.advance_pc : (s.advance).pc = s.pc + 2 := rfl
@[simp] theorem State.advance_stack : (s.advance).stack = s.stack := rfl
@[simp] theorem State.advance_timer : (s.advance).timer = s.timer := rfl
@[simp] theorem State.advance_keys : (s.advance).keys = s.keys := rfl
@[simp] theorem State.advance_fb : (s.advance).fb = s.fb := rfl
@[simp] theorem State.advance_mem : (s.advance).mem = s.mem := rfl
@[simp] theorem State.advance_fault : (s.advance).fault = s.fault := rfl
@[simp] theorem State.advance_readV (r : RegIdx) : (s.advance).readV r = s.readV r := rfl

/-! ### `State.skipNext` -/

@[simp] theorem State.skipNext_v : (s.skipNext).v = s.v := rfl
@[simp] theorem State.skipNext_i : (s.skipNext).i = s.i := rfl
@[simp] theorem State.skipNext_pc : (s.skipNext).pc = s.pc + 4 := rfl
@[simp] theorem State.skipNext_stack : (s.skipNext).stack = s.stack := rfl
@[simp] theorem State.skipNext_timer : (s.skipNext).timer = s.timer := rfl
@[simp] theorem State.skipNext_keys : (s.skipNext).keys = s.keys := rfl
@[simp] theorem State.skipNext_fb : (s.skipNext).fb = s.fb := rfl
@[simp] theorem State.skipNext_mem : (s.skipNext).mem = s.mem := rfl
@[simp] theorem State.skipNext_fault : (s.skipNext).fault = s.fault := rfl
@[simp] theorem State.skipNext_readV (r : RegIdx) : (s.skipNext).readV r = s.readV r := rfl

/-! ### `State.skipIf` -/

@[simp] theorem State.skipIf_v (c : Bool) : (s.skipIf c).v = s.v := by cases c <;> rfl
@[simp] theorem State.skipIf_i (c : Bool) : (s.skipIf c).i = s.i := by cases c <;> rfl
@[simp] theorem State.skipIf_pc (c : Bool) : (s.skipIf c).pc = if c then s.pc + 4 else s.pc + 2 := by cases c <;> rfl
@[simp] theorem State.skipIf_stack (c : Bool) : (s.skipIf c).stack = s.stack := by cases c <;> rfl
@[simp] theorem State.skipIf_timer (c : Bool) : (s.skipIf c).timer = s.timer := by cases c <;> rfl
@[simp] theorem State.skipIf_keys (c : Bool) : (s.skipIf c).keys = s.keys := by cases c <;> rfl
@[simp] theorem State.skipIf_fb (c : Bool) : (s.skipIf c).fb = s.fb := by cases c <;> rfl
@[simp] theorem State.skipIf_mem (c : Bool) : (s.skipIf c).mem = s.mem := by cases c <;> rfl
@[simp] theorem State.skipIf_fault (c : Bool) : (s.skipIf c).fault = s.fault := by cases c <;> rfl
@[simp] theorem State.skipIf_readV (c : Bool) (r : RegIdx) : (s.skipIf c).readV r = s.readV r := by cases c <;> rfl

/-! ### `State.takeFault` -/

@[simp] theorem State.takeFault_v (o : Option Word) (k : FaultKind) : (s.takeFault o k).v = s.v := rfl
@[simp] theorem State.takeFault_i (o : Option Word) (k : FaultKind) : (s.takeFault o k).i = s.i := rfl
@[simp] theorem State.takeFault_pc (o : Option Word) (k : FaultKind) : (s.takeFault o k).pc = s.pc := rfl
@[simp] theorem State.takeFault_stack (o : Option Word) (k : FaultKind) : (s.takeFault o k).stack = s.stack := rfl
@[simp] theorem State.takeFault_timer (o : Option Word) (k : FaultKind) : (s.takeFault o k).timer = s.timer := rfl
@[simp] theorem State.takeFault_keys (o : Option Word) (k : FaultKind) : (s.takeFault o k).keys = s.keys := rfl
@[simp] theorem State.takeFault_fb (o : Option Word) (k : FaultKind) : (s.takeFault o k).fb = s.fb := rfl
@[simp] theorem State.takeFault_mem (o : Option Word) (k : FaultKind) : (s.takeFault o k).mem = s.mem := rfl
@[simp] theorem State.takeFault_fault (o : Option Word) (k : FaultKind) : (s.takeFault o k).fault = some ⟨k, s.pc, o⟩ := rfl
@[simp] theorem State.takeFault_readV (o : Option Word) (k : FaultKind) (r : RegIdx) : (s.takeFault o k).readV r = s.readV r := rfl

/-! ### `State.timerSet` -/

@[simp] theorem State.timerSet_v (b : Byte) : (s.timerSet b).v = s.v := rfl
@[simp] theorem State.timerSet_i (b : Byte) : (s.timerSet b).i = s.i := rfl
@[simp] theorem State.timerSet_pc (b : Byte) : (s.timerSet b).pc = s.pc := rfl
@[simp] theorem State.timerSet_stack (b : Byte) : (s.timerSet b).stack = s.stack := rfl
@[simp] theorem State.timerSet_timer (b : Byte) : (s.timerSet b).timer = b := rfl
@[simp] theorem State.timerSet_keys (b : Byte) : (s.timerSet b).keys = s.keys := rfl
@[simp] theorem State.timerSet_fb (b : Byte) : (s.timerSet b).fb = s.fb := rfl
@[simp] theorem State.timerSet_mem (b : Byte) : (s.timerSet b).mem = s.mem := rfl
@[simp] theorem State.timerSet_fault (b : Byte) : (s.timerSet b).fault = s.fault := rfl
@[simp] theorem State.timerSet_readV (b : Byte) (r : RegIdx) : (s.timerSet b).readV r = s.readV r := rfl

/-! ### `State.clearDisplay` -/

@[simp] theorem State.clearDisplay_v : (s.clearDisplay).v = s.v := rfl
@[simp] theorem State.clearDisplay_i : (s.clearDisplay).i = s.i := rfl
@[simp] theorem State.clearDisplay_pc : (s.clearDisplay).pc = s.pc := rfl
@[simp] theorem State.clearDisplay_stack : (s.clearDisplay).stack = s.stack := rfl
@[simp] theorem State.clearDisplay_timer : (s.clearDisplay).timer = s.timer := rfl
@[simp] theorem State.clearDisplay_keys : (s.clearDisplay).keys = s.keys := rfl
@[simp] theorem State.clearDisplay_mem : (s.clearDisplay).mem = s.mem := rfl
@[simp] theorem State.clearDisplay_fault : (s.clearDisplay).fault = s.fault := rfl
@[simp] theorem State.clearDisplay_readV (r : RegIdx) : (s.clearDisplay).readV r = s.readV r := rfl

/-! ### Reading registers back (R21) -/

/-- A register reads as the value written to it, every other register as before. -/
theorem State.readV_writeV (x r : RegIdx) (b : Byte) :
    (s.writeV x b).readV r = if r = x then b else s.readV r := by
  simp only [State.readV, State.writeV, Vector.getElem_set, BitVec.toNat_inj, eq_comm]

@[simp] theorem State.readV_writeV_same (x : RegIdx) (b : Byte) : (s.writeV x b).readV x = b := by
  simp [State.readV_writeV]

theorem State.readV_writeV_ne {x r : RegIdx} (b : Byte) (h : r ≠ x) : (s.writeV x b).readV r = s.readV r := by
  simp [State.readV_writeV, h]

/-- VF reads as the flag written, every other register as before. -/
theorem State.readV_writeFlag (r : RegIdx) (b : Byte) :
    (s.writeFlag b).readV r = if r = flagReg then b else s.readV r :=
  State.readV_writeV s flagReg r b

/-- Two states with the same registers, read one by one, hold the same register file. -/
theorem State.v_ext {s t : State} (h : ∀ r, t.readV r = s.readV r) : t.v = s.v := by
  apply Vector.ext
  intro k hk
  have := h (BitVec.ofNat 4 k)
  simpa [State.readV, Nat.mod_eq_of_lt hk] using this

/-- After reset every register reads 0 (R21). -/
@[simp] theorem State.readV_reset (r : RegIdx) : State.reset.readV r = 0 := by
  simp [State.readV, State.reset]

end Sys2Proof.Machine
end

