-- ==== Sys2Proof/Laws/Bus.lean ====
section
/-! SUPPORT. The device primitives (spec/20_memory.md R59 to R64): what each can do, said once. The draw's loops are brought
to a closed form: every pixel is XORed with the sprite bit above it, and a collision is a set pixel under a 1 bit. -/

namespace Sys2Proof.Machine

/-! ### Pixels -/

/-- Writing a pixel on the grid changes that pixel alone. -/
theorem Framebuffer.pixel_setPixel (fb : Framebuffer) {x y : Nat} (hx : x < Config.dispW) (hy : y < Config.dispH)
    (b : Bool) (x' y' : Nat) :
    Framebuffer.pixel (Framebuffer.setPixel fb x y b) x' y' =
      if x' = x ∧ y' = y then b else Framebuffer.pixel fb x' y' := by
  unfold Framebuffer.setPixel Framebuffer.pixel
  rw [dif_pos hy]
  by_cases h1 : y' < Config.dispH <;> by_cases h2 : x' < Config.dispW
  · by_cases e1 : y = y' <;> by_cases e2 : x = x' <;>
      simp_all [eq_comm]
  · have : ¬ (x' = x ∧ y' = y) := by omega
    simp [h2, this]
  · have : ¬ (x' = x ∧ y' = y) := by omega
    simp [h1, this]
  · have : ¬ (x' = x ∧ y' = y) := by omega
    simp [h1, this]

/-- A pixel off the grid reads as not set. -/
theorem Framebuffer.pixel_off (fb : Framebuffer) {x y : Nat} (h : ¬ (x < Config.dispW ∧ y < Config.dispH)) :
    Framebuffer.pixel fb x y = false := by
  unfold Framebuffer.pixel
  split_ifs with h1 h2
  · exact absurd ⟨h2, h1⟩ h
  · rfl
  · rfl

/-- Two displays that agree on every pixel are the same. -/
theorem Framebuffer.ext_pixel {f g : Framebuffer} (h : ∀ x y, Framebuffer.pixel f x y = Framebuffer.pixel g x y) :
    f = g := by
  apply Vector.ext
  intro y hy
  apply Vector.ext
  intro x hx
  have := h x y
  unfold Framebuffer.pixel at this
  simpa [hx, hy] using this

/-- Every pixel of a clear display is 0 (R60, R260). -/
@[simp] theorem Framebuffer.pixel_clear (x y : Nat) :
    Framebuffer.pixel (Vector.replicate Config.dispH (Vector.replicate Config.dispW false)) x y = false := by
  unfold Framebuffer.pixel
  split_ifs <;> simp

/-! ### Drawing (R59) -/

/-- The bit a sprite drawn at (px, py) has above pixel (x, y): bit `7 - c` of byte `r` at column `px + c`, row `py + r`;
no bit outside the 8 x n block. -/
def blockBit (px py : Nat) (bytes : List Byte) (x y : Nat) : Bool :=
  decide (px ≤ x ∧ x < px + 8 ∧ py ≤ y ∧ y < py + bytes.length) && (bytes.getD (y - py) 0).getLsbD (7 - (x - px))

/-- One sprite bit: its pixel is XORed with it, and a collision is a 1 bit on a set pixel. -/
theorem drawBit_spec (acc : Framebuffer × Bool) {x y : Nat} (hx : x < Config.dispW) (hy : y < Config.dispH) (bit : Bool) :
    (∀ x' y', Framebuffer.pixel (drawBit acc x y bit).1 x' y' =
      (Framebuffer.pixel acc.1 x' y' ^^ (decide (x' = x ∧ y' = y) && bit))) ∧
    (drawBit acc x y bit).2 = (acc.2 || (bit && Framebuffer.pixel acc.1 x y)) := by
  cases bit with
  | false => simp [drawBit]
  | true =>
    refine ⟨fun x' y' => ?_, by simp [drawBit]⟩
    simp only [drawBit, if_true, Framebuffer.pixel_setPixel _ hx hy]
    by_cases h : x' = x ∧ y' = y
    · simp [h]
    · simp [h]

/-- The columns of one row: what they do to every pixel, and when they collide. -/
theorem drawColumns_spec (px y : Nat) (byte : Byte) (hy : y < Config.dispH) (count : Nat) :
    ∀ (c : Nat) (acc : Framebuffer × Bool), px + c + count ≤ Config.dispW →
      (∀ x' y', Framebuffer.pixel (drawColumns px y byte c count acc).1 x' y' =
        (Framebuffer.pixel acc.1 x' y' ^^
          (decide (px + c ≤ x' ∧ x' < px + c + count ∧ y' = y) && byte.getLsbD (7 - (x' - px))))) ∧
      ((drawColumns px y byte c count acc).2 = true ↔ acc.2 = true ∨
        ∃ x', px + c ≤ x' ∧ x' < px + c + count ∧ byte.getLsbD (7 - (x' - px)) = true ∧
          Framebuffer.pixel acc.1 x' y = true) := by
  induction count with
  | zero =>
    intro c acc _
    refine ⟨fun x' y' => ?_, ?_⟩
    · have : ¬ (px + c ≤ x' ∧ x' < px + c + 0 ∧ y' = y) := by omega
      simp only [drawColumns, this, decide_false, Bool.false_and, Bool.xor_false]
    · simp only [drawColumns]
      constructor
      · exact Or.inl
      · rintro (h | ⟨x', h1, h2, _⟩)
        · exact h
        · omega
  | succ n ih =>
    intro c acc hc
    obtain ⟨hp, hcol⟩ := drawBit_spec acc (x := px + c) (y := y) (by omega) hy (byte.getLsbD (7 - c))
    obtain ⟨ihp, ihcol⟩ := ih (c + 1) (drawBit acc (px + c) y (byte.getLsbD (7 - c))) (by omega)
    simp only [drawColumns]
    refine ⟨fun x' y' => ?_, ?_⟩
    · rw [ihp, hp]
      by_cases hx : x' = px + c
      · subst hx
        have e : px + c - px = c := by omega
        have n1 : ¬ (px + (c + 1) ≤ px + c ∧ px + c < px + (c + 1) + n ∧ y' = y) := by omega
        by_cases hyy : y' = y
        · simp [hyy, e]
        · simp [hyy]
      · have e1 : (px + (c + 1) ≤ x' ∧ x' < px + (c + 1) + n ∧ y' = y) ↔
            (px + c ≤ x' ∧ x' < px + c + (n + 1) ∧ y' = y) := by omega
        simp [hx, e1]
    · rw [ihcol, hcol]
      constructor
      · rintro (h | ⟨x', h1, h2, h3, h4⟩)
        · rw [Bool.or_eq_true, Bool.and_eq_true] at h
          rcases h with h | ⟨h1, h2⟩
          · exact Or.inl h
          · exact Or.inr ⟨px + c, by omega, by omega, by rwa [show px + c - px = c by omega], h2⟩
        · refine Or.inr ⟨x', by omega, by omega, h3, ?_⟩
          rw [hp] at h4
          have : ¬ (x' = px + c ∧ y = y) := by omega
          simpa [show ¬ x' = px + c by omega] using h4
      · rintro (h | ⟨x', h1, h2, h3, h4⟩)
        · exact Or.inl (by simp [h])
        · by_cases hx : x' = px + c
          · subst hx
            rw [show px + c - px = c by omega] at h3
            exact Or.inl (by simp [h3, h4])
          · refine Or.inr ⟨x', by omega, by omega, h3, ?_⟩
            rw [hp]
            simpa [hx] using h4

/-- The rows of a sprite inside the grid: what they do to every pixel, and when they collide. -/
theorem drawRows_spec (px : Nat) (hpx : px + 8 ≤ Config.dispW) (bytes : List Byte) :
    ∀ (y : Nat) (acc : Framebuffer × Bool), y + bytes.length ≤ Config.dispH →
      (∀ x' y', Framebuffer.pixel (drawRows px y bytes acc).1 x' y' =
        (Framebuffer.pixel acc.1 x' y' ^^ blockBit px y bytes x' y')) ∧
      ((drawRows px y bytes acc).2 = true ↔ acc.2 = true ∨
        ∃ x' y', blockBit px y bytes x' y' = true ∧ Framebuffer.pixel acc.1 x' y' = true) := by
  induction bytes with
  | nil =>
    intro y acc _
    have none (x' y' : Nat) : blockBit px y [] x' y' = false := by
      have : ¬ (px ≤ x' ∧ x' < px + 8 ∧ y ≤ y' ∧ y' < y + ([] : List Byte).length) := by
        simp only [List.length_nil]; omega
      simp only [blockBit, this, decide_false, Bool.false_and]
    simp [drawRows, none]
  | cons byte rest ih =>
    intro y acc hlen
    simp only [List.length_cons] at hlen
    obtain ⟨hp, hcol⟩ := drawColumns_spec px y byte (by omega) 8 0 acc (by omega)
    obtain ⟨ihp, ihcol⟩ := ih (y + 1) (drawColumns px y byte 0 8 acc) (by omega)
    have top (x' : Nat) : blockBit px y (byte :: rest) x' y =
        (decide (px ≤ x' ∧ x' < px + 8) && byte.getLsbD (7 - (x' - px))) := by
      simp [blockBit]
    have below (x' y' : Nat) (h : y' ≠ y) : blockBit px y (byte :: rest) x' y' = blockBit px (y + 1) rest x' y' := by
      unfold blockBit
      by_cases hy : y + 1 ≤ y'
      · have e : y' - y = (y' - (y + 1)) + 1 := by omega
        rw [e, List.getD_cons_succ]
        congr 2
        simp only [List.length_cons, eq_iff_iff]
        omega
      · have n1 : ¬ (px ≤ x' ∧ x' < px + 8 ∧ y ≤ y' ∧ y' < y + (byte :: rest).length) := by omega
        have n2 : ¬ (px ≤ x' ∧ x' < px + 8 ∧ y + 1 ≤ y' ∧ y' < y + 1 + rest.length) := by omega
        simp only [n1, n2, decide_false, Bool.false_and]
    have none (x' : Nat) : blockBit px (y + 1) rest x' y = false := by
      have n2 : ¬ (px ≤ x' ∧ x' < px + 8 ∧ y + 1 ≤ y ∧ y < y + 1 + rest.length) := by omega
      simp only [blockBit, n2, decide_false, Bool.false_and]
    simp only [drawRows]
    refine ⟨fun x' y' => ?_, ?_⟩
    · rw [ihp, hp]
      by_cases hyy : y' = y
      · subst hyy
        simp [top, none]
      · have n1 : ¬ (px + 0 ≤ x' ∧ x' < px + 0 + 8 ∧ y' = y) := by omega
        rw [below x' y' hyy]
        simp only [n1, decide_false, Bool.false_and, Bool.xor_false]
    · rw [ihcol, hcol]
      constructor
      · rintro ((h | ⟨x', h1, h2, h3, h4⟩) | ⟨x', y', h1, h2⟩)
        · exact Or.inl h
        · refine Or.inr ⟨x', y, ?_, h4⟩
          rw [top]
          simp [h3, show px ≤ x' by omega, show x' < px + 8 by omega]
        · have hyy : y' ≠ y := by
            rintro rfl
            rw [none] at h1
            cases h1
          refine Or.inr ⟨x', y', (below x' y' hyy).trans h1, ?_⟩
          rw [hp] at h2
          simpa [hyy] using h2
      · rintro (h | ⟨x', y', h1, h2⟩)
        · exact Or.inl (Or.inl h)
        · by_cases hyy : y' = y
          · subst hyy
            rw [top, Bool.and_eq_true, decide_eq_true_eq] at h1
            exact Or.inl (Or.inr ⟨x', by omega, by omega, h1.2, h2⟩)
          · refine Or.inr ⟨x', y', (below x' y' hyy).symm.trans h1, ?_⟩
            rw [hp]
            simpa [hyy] using h2

/-- When the block leaves the grid (R227). -/
theorem blockOffGrid_iff (px py : Byte) (n : Nat) :
    blockOffGrid px py n = true ↔ px.toNat + 7 > 63 ∨ py.toNat + n - 1 > 31 := by
  simp [blockOffGrid]

/-- A draw of no row reads and touches no pixel, wherever it is (R59). -/
theorem State.draw_nil (s : State) (px py : Byte) : s.draw px py [] = .ok (false, s) := rfl

/-- A draw off the grid faults (R59, R227). -/
theorem State.draw_off (s : State) (px py : Byte) (bytes : List Byte) (h0 : bytes.length ≠ 0)
    (h : blockOffGrid px py bytes.length = true) :
    s.draw px py bytes = .error (.displayOutOfRange px py bytes.length) := by
  simp only [State.draw, if_neg h0, if_pos h]

/-- A draw on the grid, or of no row: the display is XORed with the sprite, and a collision is some set pixel under a 1 bit;
nothing else changes (R59). -/
theorem State.draw_ok (s : State) (px py : Byte) (bytes : List Byte)
    (h : bytes.length = 0 ∨ blockOffGrid px py bytes.length = false) :
    ∃ c f, s.draw px py bytes = .ok (c, { s with fb := f }) ∧
      (∀ x y, Framebuffer.pixel f x y =
        (Framebuffer.pixel s.fb x y ^^ blockBit px.toNat py.toNat bytes x y)) ∧
      (c = true ↔ ∃ x y, blockBit px.toNat py.toNat bytes x y = true ∧ Framebuffer.pixel s.fb x y = true) := by
  by_cases h0 : bytes.length = 0
  · obtain rfl := List.length_eq_zero_iff.mp h0
    have none (x y : Nat) : blockBit px.toNat py.toNat [] x y = false := by
      have : ¬ (px.toNat ≤ x ∧ x < px.toNat + 8 ∧ py.toNat ≤ y ∧ y < py.toNat + ([] : List Byte).length) := by
        simp only [List.length_nil]; omega
      simp only [blockBit, this, decide_false, Bool.false_and]
    exact ⟨false, s.fb, rfl, by simp [none], by simp [none]⟩
  · have hg : blockOffGrid px py bytes.length = false := h.resolve_left h0
    have hgrid : ¬ (px.toNat + 7 > 63 ∨ py.toNat + bytes.length - 1 > 31) := by
      rw [← blockOffGrid_iff, hg]
      simp
    obtain ⟨hp, hc⟩ := drawRows_spec px.toNat (by simp only [Config.dispW]; omega) bytes py.toNat (s.fb, false)
      (by simp only [Config.dispH]; omega)
    refine ⟨(drawRows px.toNat py.toNat bytes (s.fb, false)).2, (drawRows px.toNat py.toNat bytes (s.fb, false)).1,
      ?_, hp, ?_⟩
    · simp only [State.draw, if_neg h0, hg, Bool.false_eq_true, if_false]
    · rw [hc]
      simp

/-! ### Keys and timer (R61 to R64) -/

/-- Everything a key test can answer (R61). -/
theorem State.keyPressed_eq (s : State) (k : Byte) :
    s.keyPressed k = if h : k.toNat < 16 then .ok (s.keys[k.toNat]) else .error (.invalidKey k) := rfl

/-- Everything a host's key change can answer (R64). -/
theorem State.setPressed_eq (s : State) (k : Byte) (b : Bool) :
    s.setPressed k b =
      if h : k.toNat < 16 then .ok { s with keys := s.keys.set k.toNat b } else .error (.invalidKey k) := rfl

/-- A tick decrements the timer, floored at zero, and nothing else (R63). -/
theorem State.tick_eq (s : State) : s.tick = { s with timer := BitVec.ofNat 8 (s.timer.toNat - 1) } := by
  unfold State.tick
  split_ifs with h
  · rfl
  · have h0 : s.timer.toNat = 0 := by omega
    have : s.timer = 0 := BitVec.eq_of_toNat_eq (by simpa using h0)
    cases s
    simp_all

end Sys2Proof.Machine
end

