-- ==== Sys2Proof/Laws/Decode.lean ====
section
/-! SUPPORT. The fields of a word (spec/30_encoding.md R81), and R83's table: its rows are disjoint, so a word decodes to an
instruction exactly when some row accepts it (R84). -/

namespace Sys2Proof

/-! ### Words as numbers (R16, R56) -/

theorem toNat_append_eq {m n : Nat} (a : BitVec m) (b : BitVec n) : (a ++ b).toNat = a.toNat * 2 ^ n + b.toNat := by
  rw [BitVec.toNat_append, ← Nat.shiftLeft_add_eq_or_of_lt b.isLt, Nat.shiftLeft_eq]

theorem toNat_encodeN (c : Nibble) (nnn : Addr12) : (encodeN c nnn).toNat = c.toNat * 4096 + nnn.toNat :=
  toNat_append_eq c nnn

theorem toNat_encodeXKK (c : Nibble) (x : RegIdx) (kk : Byte) :
    (encodeXKK c x kk).toNat = c.toNat * 4096 + x.toNat * 256 + kk.toNat := by
  have h := toNat_append_eq (c ++ x) kk
  rw [toNat_append_eq c x] at h
  exact h.trans (by omega)

theorem toNat_encodeXYN (c : Nibble) (x y : RegIdx) (n : Nibble) :
    (encodeXYN c x y n).toNat = c.toNat * 4096 + x.toNat * 256 + y.toNat * 16 + n.toNat := by
  have h := toNat_append_eq (c ++ x ++ y) n
  rw [toNat_append_eq (c ++ x) y, toNat_append_eq c x] at h
  exact h.trans (by omega)

/-! ### The words in the form of the rules: family `|` fields shifted into place -/

/-- Bits of a concatenation, at the width the parts add up to. -/
theorem getLsbD_append_at {m n : Nat} (a : BitVec m) (b : BitVec n) (k : Nat) :
    (a ++ b).getLsbD k = if k < n then b.getLsbD k else a.getLsbD (k - n) :=
  BitVec.getLsbD_append

theorem encodeN_eq_or (c : Nibble) (nnn : Addr12) : encodeN c nnn = (c.setWidth 16 <<< 12) ||| nnn.setWidth 16 := by
  apply BitVec.eq_of_getLsbD_eq
  intro k hk
  refine (getLsbD_append_at c nnn k).trans ?_
  interval_cases k <;> simp

theorem encodeXKK_eq_or (c : Nibble) (x : RegIdx) (kk : Byte) :
    encodeXKK c x kk = (c.setWidth 16 <<< 12) ||| (x.setWidth 16 <<< 8) ||| kk.setWidth 16 := by
  apply BitVec.eq_of_getLsbD_eq
  intro k hk
  refine (getLsbD_append_at (c ++ x) kk k).trans ?_
  rw [getLsbD_append_at c x]
  interval_cases k <;> simp

theorem encodeXYN_eq_or (c : Nibble) (x y : RegIdx) (n : Nibble) :
    encodeXYN c x y n =
      (c.setWidth 16 <<< 12) ||| (x.setWidth 16 <<< 8) ||| (y.setWidth 16 <<< 4) ||| n.setWidth 16 := by
  apply BitVec.eq_of_getLsbD_eq
  intro k hk
  refine (getLsbD_append_at (c ++ x ++ y) n k).trans ?_
  rw [getLsbD_append_at (c ++ x) y, getLsbD_append_at c x]
  interval_cases k <;> simp

/-! ### The fields as numbers -/

@[simp] theorem toNat_fieldX (op : Word) : (fieldX op).toNat = op.toNat / 256 % 16 := by
  simp [fieldX, BitVec.extractLsb'_toNat, Nat.shiftRight_eq_div_pow]

@[simp] theorem toNat_fieldY (op : Word) : (fieldY op).toNat = op.toNat / 16 % 16 := by
  simp [fieldY, BitVec.extractLsb'_toNat, Nat.shiftRight_eq_div_pow]

@[simp] theorem toNat_fieldN (op : Word) : (fieldN op).toNat = op.toNat % 16 := by
  simp [fieldN, BitVec.extractLsb'_toNat]

@[simp] theorem toNat_fieldKK (op : Word) : (fieldKK op).toNat = op.toNat % 256 := by
  simp [fieldKK, BitVec.extractLsb'_toNat]

@[simp] theorem toNat_fieldNNN (op : Word) : (fieldNNN op).toNat = op.toNat % 4096 := by
  simp [fieldNNN, BitVec.extractLsb'_toNat]

@[simp] theorem toNat_highByte (op : Word) : (highByte op).toNat = op.toNat / 256 := by
  have := op.isLt
  simp only [highByte, BitVec.extractLsb'_toNat, Nat.shiftRight_eq_div_pow]
  omega

@[simp] theorem toNat_lowByte (op : Word) : (lowByte op).toNat = op.toNat % 256 := by
  simp [lowByte, BitVec.extractLsb'_toNat]

/-- The two bytes of a word combine to it (R56). -/
@[simp] theorem wordOfBytes_high_low (op : Word) : wordOfBytes (highByte op) (lowByte op) = op := by
  apply BitVec.eq_of_toNat_eq
  have := op.isLt
  simp only [wordOfBytes, BitVec.toNat_ofNat, toNat_highByte, toNat_lowByte]
  omega

/-! ### The fields of an encoded word -/

@[simp] theorem fieldNNN_encodeN (c : Nibble) (nnn : Addr12) : fieldNNN (encodeN c nnn) = nnn := by
  apply BitVec.eq_of_toNat_eq
  have := nnn.isLt
  rw [toNat_fieldNNN, toNat_encodeN]
  omega

@[simp] theorem fieldX_encodeXKK (c : Nibble) (x : RegIdx) (kk : Byte) : fieldX (encodeXKK c x kk) = x := by
  apply BitVec.eq_of_toNat_eq
  have := x.isLt
  have := kk.isLt
  rw [toNat_fieldX, toNat_encodeXKK]
  omega

@[simp] theorem fieldKK_encodeXKK (c : Nibble) (x : RegIdx) (kk : Byte) : fieldKK (encodeXKK c x kk) = kk := by
  apply BitVec.eq_of_toNat_eq
  have := kk.isLt
  rw [toNat_fieldKK, toNat_encodeXKK]
  omega

@[simp] theorem fieldX_encodeXYN (c : Nibble) (x y : RegIdx) (n : Nibble) : fieldX (encodeXYN c x y n) = x := by
  apply BitVec.eq_of_toNat_eq
  have := x.isLt
  have := y.isLt
  have := n.isLt
  rw [toNat_fieldX, toNat_encodeXYN]
  omega

@[simp] theorem fieldY_encodeXYN (c : Nibble) (x y : RegIdx) (n : Nibble) : fieldY (encodeXYN c x y n) = y := by
  apply BitVec.eq_of_toNat_eq
  have := y.isLt
  have := n.isLt
  rw [toNat_fieldY, toNat_encodeXYN]
  omega

@[simp] theorem fieldN_encodeXYN (c : Nibble) (x y : RegIdx) (n : Nibble) : fieldN (encodeXYN c x y n) = n := by
  apply BitVec.eq_of_toNat_eq
  have := n.isLt
  rw [toNat_fieldN, toNat_encodeXYN]
  omega

/-! ### Masked words: which fields each mask of R83 keeps -/

/-- The bits from `k` upward, as a number. -/
theorem toNat_high_bits (op : Word) (k : Nat) :
    (op >>> k <<< k).toNat = op.toNat / 2 ^ k * 2 ^ k := by
  rw [BitVec.toNat_shiftLeft, BitVec.toNat_ushiftRight, Nat.shiftLeft_eq, Nat.shiftRight_eq_div_pow]
  exact Nat.mod_eq_of_lt (Nat.lt_of_le_of_lt (Nat.div_mul_le_self _ _) op.isLt)

/-- `op & 0xF000` keeps the family digit. -/
theorem and_F000 (op : Word) : (op &&& 0xF000#16).toNat = op.toNat / 4096 * 4096 := by
  have e : op &&& 0xF000#16 = op >>> 12 <<< 12 := by
    ext k hk
    interval_cases k <;> simp
  exact (congrArg BitVec.toNat e).trans (toNat_high_bits op 12)

/-- A mask of the family digit and the low `k` bits keeps just these. -/
theorem and_mask_split (op mask : Word) (k : Nat) (hk : k ≤ 12)
    (e : op &&& mask = (op >>> 12 <<< 12) ||| (op <<< (16 - k) >>> (16 - k))) :
    (op &&& mask).toNat = op.toNat / 4096 * 4096 + op.toNat % 2 ^ k := by
  have low : (op <<< (16 - k) >>> (16 - k)).toNat = op.toNat % 2 ^ k := by
    rw [BitVec.toNat_ushiftRight, BitVec.toNat_shiftLeft, Nat.shiftRight_eq_div_pow, Nat.shiftLeft_eq,
      show (2 : Nat) ^ 16 = 2 ^ k * 2 ^ (16 - k) by rw [← Nat.pow_add]; congr 1; omega, Nat.mul_mod_mul_right,
      Nat.mul_div_cancel _ (Nat.two_pow_pos _)]
  have hlow : op.toNat % 2 ^ k < 2 ^ 12 :=
    Nat.lt_of_lt_of_le (Nat.mod_lt _ (Nat.two_pow_pos _)) (Nat.pow_le_pow_right (by omega) hk)
  rw [e, BitVec.toNat_or, low, toNat_high_bits op 12, Nat.mul_comm, ← Nat.two_pow_add_eq_or_of_lt hlow]
  omega

/-- `op & 0xF00F` keeps the family digit and the last digit. -/
theorem and_F00F (op : Word) : (op &&& 0xF00F#16).toNat = op.toNat / 4096 * 4096 + op.toNat % 16 := by
  refine and_mask_split op _ 4 (by omega) ?_
  ext k hk
  interval_cases k <;> simp

/-- `op & 0xF0FF` keeps the family digit and the low byte. -/
theorem and_F0FF (op : Word) : (op &&& 0xF0FF#16).toNat = op.toNat / 4096 * 4096 + op.toNat % 256 := by
  refine and_mask_split op _ 8 (by omega) ?_
  ext k hk
  interval_cases k <;> simp

/-! ### Each mask's test, on numbers -/

theorem and_FFFF_eq_iff (op p : Word) : op &&& 0xFFFF#16 = p ↔ op.toNat = p.toNat := by
  have all : op &&& 0xFFFF#16 = op := by simpa using BitVec.and_allOnes (x := op)
  rw [all, BitVec.toNat_inj]

theorem and_F000_eq_iff (op p : Word) : op &&& 0xF000#16 = p ↔ op.toNat / 4096 * 4096 = p.toNat := by
  rw [← BitVec.toNat_inj, and_F000]

theorem and_F00F_eq_iff (op p : Word) :
    op &&& 0xF00F#16 = p ↔ op.toNat / 4096 * 4096 + op.toNat % 16 = p.toNat := by
  rw [← BitVec.toNat_inj, and_F00F]

theorem and_F0FF_eq_iff (op p : Word) :
    op &&& 0xF0FF#16 = p ↔ op.toNat / 4096 * 4096 + op.toNat % 256 = p.toNat := by
  rw [← BitVec.toNat_inj, and_F0FF]

/-! ### The table (R83, R84) -/

/-- A row's test, as an equation of words. -/
theorem OpcodeRow.accepts_iff (r : OpcodeRow) (op : Word) : r.accepts op = true ↔ op &&& r.mask = r.pattern := by
  simp [OpcodeRow.accepts]

/-- Two rows whose patterns differ in a bit both masks keep accept no common word. -/
theorem OpcodeRow.disjoint_of_pattern {r q : OpcodeRow} (h : r.pattern &&& q.mask ≠ q.pattern &&& r.mask) (op : Word) :
    ¬ (r.accepts op = true ∧ q.accepts op = true) := by
  rintro ⟨hr, hq⟩
  rw [OpcodeRow.accepts_iff] at hr hq
  apply h
  rw [← hr, ← hq, BitVec.and_assoc, BitVec.and_assoc, BitVec.and_comm r.mask]

/-- "The 21 patterns are pairwise disjoint" (R84). -/
theorem opcodeTable_disjoint :
    opcodeTable.Pairwise (fun r q => ∀ op, ¬ (r.accepts op = true ∧ q.accepts op = true)) :=
  List.Pairwise.imp (fun h => OpcodeRow.disjoint_of_pattern h)
    (show opcodeTable.Pairwise (fun r q => r.pattern &&& q.mask ≠ q.pattern &&& r.mask) by decide)

/-- The first accepting element of a list whose elements are disjoint is the only one. -/
theorem find_of_disjoint {α : Type} {p : α → Bool} {l : List α} (h : l.Pairwise (fun a b => ¬ (p a = true ∧ p b = true)))
    {a : α} (ha : a ∈ l) (hp : p a = true) : l.find? p = some a := by
  induction l with
  | nil => cases ha
  | cons b l ih =>
    obtain ⟨hb, hl⟩ := List.pairwise_cons.mp h
    rcases List.mem_cons.mp ha with rfl | ha
    · simp [hp]
    · have : p b = false := by
        have := hb a ha
        simp_all
      simp [this, ih hl ha]

/-- Everything an accepting decode says (R84): a word decodes to `i` exactly when a row accepts it and builds `i`. -/
theorem decodeWord_eq_ok_iff (op : Word) (i : Instr) :
    decodeWord op = .ok i ↔ ∃ r ∈ opcodeTable, r.accepts op = true ∧ r.build op = i := by
  constructor
  · intro h
    unfold decodeWord at h
    split at h
    next r hr =>
      exact ⟨r, List.mem_of_find?_eq_some hr, List.find?_some (p := fun r : OpcodeRow => r.accepts op) hr, by simpa using h⟩
    next => cases h
  · rintro ⟨r, hr, hacc, rfl⟩
    have := find_of_disjoint (p := fun r : OpcodeRow => r.accepts op)
      (opcodeTable_disjoint.imp fun h => h op) hr hacc
    simp [decodeWord, this]

/-- Everything a rejecting decode says (R84, R85): the word named is the word given, and no row accepts it. -/
theorem decodeWord_eq_error_iff (op : Word) (e : DecodeReject) :
    decodeWord op = .error e ↔ e = .unknownOpcode op ∧ ∀ r ∈ opcodeTable, r.accepts op = false := by
  unfold decodeWord
  split
  next r hr =>
    have h1 := List.mem_of_find?_eq_some hr
    have h2 : r.accepts op = true := List.find?_some (p := fun r : OpcodeRow => r.accepts op) hr
    simp only [reduceCtorEq, false_iff]
    rintro ⟨-, h⟩
    simp [h r h1] at h2
  next hn =>
    simp only [List.find?_eq_none, Bool.not_eq_true] at hn
    simp only [Except.error.injEq]
    exact ⟨fun h => ⟨h.symm, hn⟩, fun h => h.1.symm⟩

/-- Every instruction is well formed: the operand types have the fields' widths (R82). -/
theorem Instr.wellFormed_all (i : Instr) : i.WellFormed = true := by
  have h12 (a : Addr12) : a.toNat < 4096 := a.isLt
  have h8 (a : Byte) : a.toNat < 256 := a.isLt
  have h4 (a : RegIdx) : a.toNat < 16 := a.isLt
  cases i <;> simp [Instr.WellFormed, Instr.operands, Operand.fits, h12, h8, h4]

end Sys2Proof
end

