-- ==== Sys2Proof/Laws/Memory.lean ====
section
/-! SUPPORT. Memory: a read after a write, and the canonical form every operation keeps (spec/20_memory.md R51, R52); what
the reads through `I` and the register load can do (R53, R162). -/

namespace Sys2Proof.Machine

/-! ### The list of cells -/

@[simp] theorem Memory.read_nil (a : Nat) : Memory.read [] a = Memory.unlisted := rfl

/-- An address below every listed one reads as the unlisted byte. -/
theorem Memory.read_of_lt {m : Memory} {a : Nat} (h : ∀ c ∈ m, a < c.1) : m.read a = Memory.unlisted := by
  induction m with
  | nil => rfl
  | cons c rest ih =>
    obtain ⟨k, b⟩ := c
    have hk : a < k := h (k, b) (by simp)
    simp only [Memory.read, if_neg (by omega : ¬ k = a)]
    exact ih fun c hc => h c (by simp [hc])

/-- The addresses a write lists: the old ones and its own. -/
theorem Memory.mem_write {m : Memory} {a : Nat} {b : Byte} {c : Host.Cell} (h : c ∈ m.write a b) :
    c ∈ m ∨ (c = (a, b) ∧ b ≠ Memory.unlisted) := by
  induction m with
  | nil => by_cases hb : b = Memory.unlisted <;> simp_all [Memory.write]
  | cons d rest ih =>
    obtain ⟨k, e⟩ := d
    simp only [Memory.write] at h
    split_ifs at h <;> simp_all <;> tauto

/-- A write keeps the canonical form. -/
theorem Memory.write_wf {m : Memory} (a : Nat) (b : Byte) (ha : a < Config.memSize) (h : m.wf) : (m.write a b).wf := by
  refine ⟨?_, fun c hc => ?_⟩
  · have hs := h.1
    clear h
    induction m with
    | nil => by_cases hb : b = Memory.unlisted <;> simp [Memory.write, hb]
    | cons d rest ih =>
      obtain ⟨k, e⟩ := d
      obtain ⟨hk, hrest⟩ := List.pairwise_cons.mp hs
      simp only [Memory.write]
      split_ifs with h1 h2 h3 h4
      · exact hs
      · refine List.pairwise_cons.mpr ⟨fun c hc => ?_, hs⟩
        rcases List.mem_cons.mp hc with rfl | hc
        · exact h1
        · exact Nat.lt_trans h1 (hk c hc)
      · exact hrest
      · subst h3
        exact List.pairwise_cons.mpr ⟨hk, hrest⟩
      · refine List.pairwise_cons.mpr ⟨fun c hc => ?_, ih hrest⟩
        rcases Memory.mem_write hc with hc | ⟨rfl, _⟩
        · exact hk c hc
        · simp only; omega
  · rcases Memory.mem_write hc with hc | ⟨rfl, hb⟩
    · exact h.2 c hc
    · exact ⟨ha, hb⟩

/-- A read after a write (R51, R52), in a memory whose addresses rise. -/
theorem Memory.read_write {m : Memory} (hs : m.Pairwise (fun c d => c.1 < d.1)) (a b : Nat) (v : Byte) :
    (m.write a v).read b = if b = a then v else m.read b := by
  induction m with
  | nil =>
    by_cases hv : v = Memory.unlisted <;> by_cases hb : b = a
    · simp [Memory.write, Memory.read, hv]
    · simp [Memory.write, Memory.read, hv]
    · simp [Memory.write, Memory.read, hv, hb]
    · simp [Memory.write, Memory.read, hv, hb, Ne.symm hb]
  | cons d rest ih =>
    obtain ⟨k, e⟩ := d
    obtain ⟨hk, hrest⟩ := List.pairwise_cons.mp hs
    have low : ∀ a, a ≤ k → Memory.read rest a = Memory.unlisted := fun a ha =>
      Memory.read_of_lt fun c hc => Nat.lt_of_le_of_lt ha (hk c hc)
    by_cases hba : b = a
    · subst hba
      simp only [Memory.write, if_true]
      split_ifs with h1 h2 h3 h4
      · simp only [Memory.read, if_neg (by omega : ¬ k = b), low b (by omega), h2]
      · simp [Memory.read]
      · rw [low b (by omega), h4]
      · simp [Memory.read]
      · simp only [Memory.read, if_neg (by omega : ¬ k = b)]
        simpa using ih hrest
    · simp only [Memory.write, if_neg hba]
      split_ifs with h1 h2 h3 h4
      · rfl
      · simp [Memory.read, Ne.symm hba]
      · simp only [Memory.read, if_neg (by omega : ¬ k = b)]
      · simp [Memory.read, Ne.symm hba, h3 ▸ Ne.symm hba]
      · simp only [Memory.read]
        by_cases hkb : k = b
        · simp [hkb]
        · simpa [hkb, hba] using ih hrest

/-! ### `MemRead` and `MemWrite` -/

/-- Everything a read can answer (R51). -/
theorem State.memRead_eq (s : State) (a : Nat) :
    s.memRead a = if a < Config.memSize then .ok (s.mem.read a) else .error (.outOfBounds a) := by
  by_cases h : a < Config.memSize
  · simp only [State.memRead, ge_iff_le, if_neg (Nat.not_le.mpr h), if_pos h]
  · simp only [State.memRead, ge_iff_le, if_pos (Nat.not_lt.mp h), if_neg h]

/-- Everything a host's write can answer (R52). -/
theorem State.memWrite_eq (s : State) (a : Nat) (b : Byte) :
    s.memWrite a b =
      if a < Config.memSize then .ok { s with mem := s.mem.write a b } else .error (.outOfBounds a) := by
  by_cases h : a < Config.memSize
  · simp only [State.memWrite, ge_iff_le, if_neg (Nat.not_le.mpr h), if_pos h]
  · simp only [State.memWrite, ge_iff_le, if_pos (Nat.not_lt.mp h), if_neg h]

/-- A host's write keeps the canonical form. -/
theorem State.memWrite_wf {s t : State} {a : Nat} {b : Byte} (h : s.memWrite a b = .ok t) (hw : s.mem.wf) :
    t.mem.wf := by
  rw [State.memWrite_eq] at h
  split_ifs at h with ha
  cases h
  exact Memory.write_wf a b ha hw

/-- Placing a byte keeps the canonical form. -/
theorem State.placeByte_wf {s : State} (a : Nat) (b : Byte) (hw : s.mem.wf) : (s.placeByte a b).mem.wf := by
  unfold State.placeByte
  split
  next t h => exact State.memWrite_wf h hw
  next => exact hw

/-- Placing a word keeps the canonical form. -/
theorem State.placeAtPc_wf {s : State} (op : Word) (hw : s.mem.wf) : (s.placeAtPc op).mem.wf :=
  State.placeByte_wf _ _ (State.placeByte_wf _ _ hw)

/-- Reset memory has the canonical form. -/
theorem State.reset_mem_wf : State.reset.mem.wf := by decide

/-! ### Reading through `I` (R53) -/

/-- When the last address is in memory, all the bytes are read, in order. -/
theorem State.readFromI_ok (s : State) (first count : Nat) (h : count = 0 ∨ s.i.toNat + first + count ≤ Config.memSize) :
    s.readFromI first count = .ok ((List.range' first count).map fun r => s.mem.read (s.i.toNat + r)) := by
  induction count generalizing first with
  | zero => rfl
  | succ n ih =>
    have hlt : s.i.toNat + first < Config.memSize := by omega
    simp only [State.readFromI, State.effectiveAddr, State.memRead_eq, if_pos hlt]
    rw [ih (first + 1) (by omega)]
    simp [List.range'_succ]

/-- When the last address is out of memory, the fault names the lowest that is (R221). -/
theorem State.readFromI_error (s : State) (first count : Nat) (h0 : count ≠ 0)
    (h : Config.memSize < s.i.toNat + first + count) :
    s.readFromI first count = .error (.outOfBounds (max (s.i.toNat + first) Config.memSize)) := by
  induction count generalizing first with
  | zero => exact absurd rfl h0
  | succ n ih =>
    simp only [State.readFromI, State.effectiveAddr, State.memRead_eq]
    by_cases hlt : s.i.toNat + first < Config.memSize
    · rw [if_pos hlt, ih (first + 1) (by omega) (by omega)]
      simp only [Except.error.injEq, FaultKind.outOfBounds.injEq]
      omega
    · rw [if_neg hlt]
      simp only [Except.error.injEq, FaultKind.outOfBounds.injEq]
      omega

/-! ### Loading the registers (R162) -/

/-- The load changes nothing but the register file. -/
theorem State.loadV_frame (s : State) (k : Nat) (bs : List Byte) : s.loadV k bs = { s with v := (s.loadV k bs).v } := by
  induction bs generalizing s k with
  | nil => rfl
  | cons b bs ih => simpa only [State.loadV, State.writeV] using ih (s.writeV (BitVec.ofNat 4 k) b) (k + 1)

/-- Registers `k .. k + length - 1` hold the bytes in order, every other register its old value. -/
theorem State.readV_loadV (s : State) (k : Nat) (bs : List Byte) (h : k + bs.length ≤ Config.numV) (r : RegIdx) :
    (s.loadV k bs).readV r =
      if r.toNat < k then s.readV r else (bs[r.toNat - k]?).getD (s.readV r) := by
  induction bs generalizing s k with
  | nil => simp [State.loadV]
  | cons b bs ih =>
    simp only [List.length_cons] at h
    simp only [State.loadV]
    rw [ih _ _ (by omega), State.readV_writeV]
    have hk : (BitVec.ofNat 4 k).toNat = k := by
      rw [BitVec.toNat_ofNat]
      exact Nat.mod_eq_of_lt (by simp only [Config.numV] at h; omega)
    rcases Nat.lt_trichotomy r.toNat k with hr | hr | hr
    · have : r ≠ BitVec.ofNat 4 k := fun e => by rw [e, hk] at hr; omega
      simp [this, hr, Nat.lt_succ_of_lt hr]
    · have : r = BitVec.ofNat 4 k := BitVec.eq_of_toNat_eq (by omega)
      simp only [← this, hr, if_true, Nat.lt_succ_self, Nat.lt_irrefl, if_false, Nat.sub_self]
      rfl
    · have : r ≠ BitVec.ofNat 4 k := fun e => by rw [e, hk] at hr; omega
      have e1 : ¬ r.toNat < k + 1 := by omega
      have e2 : ¬ r.toNat < k := by omega
      have e3 : r.toNat - k = (r.toNat - (k + 1)) + 1 := by omega
      simp [this, e1, e2, e3]

end Sys2Proof.Machine
end

