-- ==== Sys2Proof/Laws/Ops.lean ====
section
/-! SUPPORT. What the shared operations of the meanings can do, said once: the call stack (spec/10_state.md R27), the jump
target (spec/41_control_flow.md R111), the arithmetic of spec/42_alu.md R130, and how a meaning ends
(spec/30_encoding.md R91). -/

namespace Sys2Proof.Machine

/-! ### The end of a meaning (R91) -/

@[simp] theorem conclude_ok (i : Instr) (s t : State) : conclude i s (.ok t) = .next t := rfl

@[simp] theorem conclude_error (i : Instr) (s : State) (k : FaultKind) :
    conclude i s (.error k) = .next (s.takeFault (some (encode i)) k) := rfl

/-! ### Call stack (R27) -/

/-- A push at full depth overflows. -/
theorem State.push_full (s : State) (w : Word) (h : s.stack.length = 16) : s.push w = .error (.stackOverflow 16) := by
  simp [State.push, h]

/-- A push below full depth adds the entry on top and changes nothing else. -/
theorem State.push_ok (s : State) (w : Word) (h : s.stack.length ≠ 16) :
    s.push w = .ok { s with stack := s.stack ++ [w] } := by
  simp [State.push, h]

/-- A pop of the empty stack underflows. -/
theorem State.pop_empty (s : State) (h : s.stack = []) : s.pop = .error .stackUnderflow := by
  simp [State.pop, h]

/-- A pop answers the top entry and the state without it. -/
theorem State.pop_append (s : State) (rest : List Word) (w : Word) (h : s.stack = rest ++ [w]) :
    s.pop = .ok (w, { s with stack := rest }) := by
  simp [State.pop, h]

/-! ### Targets (R82, R111) -/

@[simp] theorem toNat_zext16 (nnn : Addr12) : (zext16 nnn).toNat = nnn.toNat := by
  have := nnn.isLt
  simp only [zext16, BitVec.toNat_setWidth]
  omega

theorem zext16_odd (nnn : Addr12) : (zext16 nnn).getLsbD 0 = decide (nnn.toNat % 2 = 1) := by
  rw [← BitVec.testBit_toNat, toNat_zext16, Nat.testBit_zero]

/-- An odd target is a fault that names it. -/
theorem evenTarget_odd (nnn : Addr12) (h : nnn.toNat % 2 = 1) :
    evenTarget nnn = .error (.misalignedTarget (BitVec.ofNat 16 nnn.toNat)) := by
  have e : zext16 nnn = BitVec.ofNat 16 nnn.toNat := by
    apply BitVec.eq_of_toNat_eq
    have := nnn.isLt
    rw [toNat_zext16, BitVec.toNat_ofNat]
    omega
  have odd : (zext16 nnn).getLsbD 0 = true := (zext16_odd nnn).trans (decide_eq_true h)
  rw [evenTarget, if_pos odd, e]

/-- An even target is itself. -/
theorem evenTarget_even (nnn : Addr12) (h : nnn.toNat % 2 = 0) : evenTarget nnn = .ok (zext16 nnn) := by
  have even : ¬ (zext16 nnn).getLsbD 0 = true := by
    rw [zext16_odd, decide_eq_true_eq]
    omega
  rw [evenTarget, if_neg even]

/-! ### Arithmetic and flags, as numbers (R130, R161) -/

@[simp] theorem toNat_add8 (a b : Byte) : (add8 a b).toNat = (a.toNat + b.toNat) % 256 := by
  simp [add8]

@[simp] theorem toNat_sub8 (a b : Byte) : (sub8 a b).toNat = (a.toNat + 256 - b.toNat) % 256 := by
  simp [sub8]

@[simp] theorem toNat_shr1 (a : Byte) : (shr1 a).toNat = a.toNat / 2 := by
  simp [shr1, Nat.shiftRight_eq_div_pow]

@[simp] theorem toNat_addIndex (w : Word) (a : Byte) : (addIndex w a).toNat = (w.toNat + a.toNat) % 65536 := by
  simp [addIndex]

theorem toNat_bool01 (c : Bool) : (bool01 c).toNat = if c then 1 else 0 := by
  cases c <;> rfl

theorem toNat_carry (a b : Byte) : (bool01 (carries a b)).toNat = if a.toNat + b.toNat > 255 then 1 else 0 := by
  simp [toNat_bool01, carries]

theorem toNat_borrow (a b : Byte) : (bool01 (borrows a b)).toNat = if a.toNat < b.toNat then 1 else 0 := by
  simp [toNat_bool01, borrows]

theorem toNat_shiftedOut (a : Byte) : (bool01 (shiftedOut a)).toNat = a.toNat % 2 := by
  rw [toNat_bool01, shiftedOut, ← BitVec.testBit_toNat, Nat.testBit_zero]
  have := Nat.mod_two_eq_zero_or_one a.toNat
  rcases this with h | h <;> simp [h]

end Sys2Proof.Machine
end

