-- ==== Sys2Proof/Laws/PerInstr.lean ====
section
/-! SUPPORT. The family `Encoding`, one lemma per instruction: it is well formed, and some row of R83's table accepts its
word and builds it back (spec/30_encoding.md R83, R84). -/

namespace Sys2Proof.Laws.Encoding

/-- The instruction's operands fit their fields, and its word is its row's. -/
def Statement (i : Instr) : Prop :=
  i.WellFormed = true ∧ ∃ r ∈ opcodeTable, encode i &&& r.mask = r.pattern ∧ r.build (encode i) = i

/-- How a row is exhibited: its place in the table, its test on the word as a number, and what it builds. -/
theorem statement_intro {i : Instr} (k : Fin 21)
    (hacc : (encode i &&& (opcodeTable.get k).mask).toNat = (opcodeTable.get k).pattern.toNat)
    (hbuild : (opcodeTable.get k).build (encode i) = i) : Statement i :=
  ⟨i.wellFormed_all, opcodeTable.get k, List.get_mem _ _, BitVec.eq_of_toNat_eq hacc, hbuild⟩

theorem cls : Statement .cls :=
  statement_intro 0 (by decide) rfl

theorem ret : Statement .ret :=
  statement_intro 1 (by decide) rfl

theorem jp (nnn : Addr12) : Statement (.jp nnn) := by
  refine statement_intro 2 ?_ (congrArg Instr.jp (fieldNNN_encodeN _ _))
  refine (and_F000 _).trans ?_
  rw [encode, toNat_encodeN]
  have := nnn.isLt
  show _ = 4096
  simp only [BitVec.ofNat_eq_ofNat, BitVec.toNat_ofNat]
  omega

theorem call (nnn : Addr12) : Statement (.call nnn) := by
  refine statement_intro 3 ?_ (congrArg Instr.call (fieldNNN_encodeN _ _))
  refine (and_F000 _).trans ?_
  rw [encode, toNat_encodeN]
  have := nnn.isLt
  show _ = 8192
  simp only [BitVec.ofNat_eq_ofNat, BitVec.toNat_ofNat]
  omega

theorem seImm (x : RegIdx) (kk : Byte) : Statement (.seImm x kk) := by
  refine statement_intro 4 ?_ (congrArg₂ Instr.seImm (fieldX_encodeXKK _ _ _) (fieldKK_encodeXKK _ _ _))
  refine (and_F000 _).trans ?_
  rw [encode, toNat_encodeXKK]
  have := x.isLt
  have := kk.isLt
  show _ = 12288
  simp only [BitVec.ofNat_eq_ofNat, BitVec.toNat_ofNat]
  omega

theorem ldImm (x : RegIdx) (kk : Byte) : Statement (.ldImm x kk) := by
  refine statement_intro 5 ?_ (congrArg₂ Instr.ldImm (fieldX_encodeXKK _ _ _) (fieldKK_encodeXKK _ _ _))
  refine (and_F000 _).trans ?_
  rw [encode, toNat_encodeXKK]
  have := x.isLt
  have := kk.isLt
  show _ = 24576
  simp only [BitVec.ofNat_eq_ofNat, BitVec.toNat_ofNat]
  omega

theorem addImm (x : RegIdx) (kk : Byte) : Statement (.addImm x kk) := by
  refine statement_intro 6 ?_ (congrArg₂ Instr.addImm (fieldX_encodeXKK _ _ _) (fieldKK_encodeXKK _ _ _))
  refine (and_F000 _).trans ?_
  rw [encode, toNat_encodeXKK]
  have := x.isLt
  have := kk.isLt
  show _ = 28672
  simp only [BitVec.ofNat_eq_ofNat, BitVec.toNat_ofNat]
  omega

theorem ldReg (x : RegIdx) (y : RegIdx) : Statement (.ldReg x y) := by
  refine statement_intro 7 ?_ (congrArg₂ Instr.ldReg (fieldX_encodeXYN _ _ _ _) (fieldY_encodeXYN _ _ _ _))
  refine (and_F00F _).trans ?_
  rw [encode, toNat_encodeXYN]
  have := x.isLt
  have := y.isLt
  show _ = 32768
  simp only [BitVec.ofNat_eq_ofNat, BitVec.toNat_ofNat]
  omega

theorem andReg (x : RegIdx) (y : RegIdx) : Statement (.andReg x y) := by
  refine statement_intro 8 ?_ (congrArg₂ Instr.andReg (fieldX_encodeXYN _ _ _ _) (fieldY_encodeXYN _ _ _ _))
  refine (and_F00F _).trans ?_
  rw [encode, toNat_encodeXYN]
  have := x.isLt
  have := y.isLt
  show _ = 32770
  simp only [BitVec.ofNat_eq_ofNat, BitVec.toNat_ofNat]
  omega

theorem xorReg (x : RegIdx) (y : RegIdx) : Statement (.xorReg x y) := by
  refine statement_intro 9 ?_ (congrArg₂ Instr.xorReg (fieldX_encodeXYN _ _ _ _) (fieldY_encodeXYN _ _ _ _))
  refine (and_F00F _).trans ?_
  rw [encode, toNat_encodeXYN]
  have := x.isLt
  have := y.isLt
  show _ = 32771
  simp only [BitVec.ofNat_eq_ofNat, BitVec.toNat_ofNat]
  omega

theorem addReg (x : RegIdx) (y : RegIdx) : Statement (.addReg x y) := by
  refine statement_intro 10 ?_ (congrArg₂ Instr.addReg (fieldX_encodeXYN _ _ _ _) (fieldY_encodeXYN _ _ _ _))
  refine (and_F00F _).trans ?_
  rw [encode, toNat_encodeXYN]
  have := x.isLt
  have := y.isLt
  show _ = 32772
  simp only [BitVec.ofNat_eq_ofNat, BitVec.toNat_ofNat]
  omega

theorem sub (x : RegIdx) (y : RegIdx) : Statement (.sub x y) := by
  refine statement_intro 11 ?_ (congrArg₂ Instr.sub (fieldX_encodeXYN _ _ _ _) (fieldY_encodeXYN _ _ _ _))
  refine (and_F00F _).trans ?_
  rw [encode, toNat_encodeXYN]
  have := x.isLt
  have := y.isLt
  show _ = 32773
  simp only [BitVec.ofNat_eq_ofNat, BitVec.toNat_ofNat]
  omega

theorem shr (x : RegIdx) (y : RegIdx) : Statement (.shr x y) := by
  refine statement_intro 12 ?_ (congrArg₂ Instr.shr (fieldX_encodeXYN _ _ _ _) (fieldY_encodeXYN _ _ _ _))
  refine (and_F00F _).trans ?_
  rw [encode, toNat_encodeXYN]
  have := x.isLt
  have := y.isLt
  show _ = 32774
  simp only [BitVec.ofNat_eq_ofNat, BitVec.toNat_ofNat]
  omega

theorem ldI (nnn : Addr12) : Statement (.ldI nnn) := by
  refine statement_intro 13 ?_ (congrArg Instr.ldI (fieldNNN_encodeN _ _))
  refine (and_F000 _).trans ?_
  rw [encode, toNat_encodeN]
  have := nnn.isLt
  show _ = 40960
  simp only [BitVec.ofNat_eq_ofNat, BitVec.toNat_ofNat]
  omega

theorem drw (x : RegIdx) (y : RegIdx) (n : Nibble) : Statement (.drw x y n) := by
  refine statement_intro 14 ?_ ?_
  · refine (and_F000 _).trans ?_
    rw [encode, toNat_encodeXYN]
    have := x.isLt
    have := y.isLt
    have := n.isLt
    show _ = 53248
    simp only [BitVec.ofNat_eq_ofNat, BitVec.toNat_ofNat]
    omega
  · show Instr.drw _ _ _ = _
    rw [encode, fieldX_encodeXYN, fieldY_encodeXYN, fieldN_encodeXYN]

theorem skp (x : RegIdx) : Statement (.skp x) := by
  refine statement_intro 15 ?_ (congrArg Instr.skp (fieldX_encodeXKK _ _ _))
  refine (and_F0FF _).trans ?_
  rw [encode, toNat_encodeXKK]
  have := x.isLt
  show _ = 57502
  simp only [BitVec.ofNat_eq_ofNat, BitVec.toNat_ofNat]
  omega

theorem sknp (x : RegIdx) : Statement (.sknp x) := by
  refine statement_intro 16 ?_ (congrArg Instr.sknp (fieldX_encodeXKK _ _ _))
  refine (and_F0FF _).trans ?_
  rw [encode, toNat_encodeXKK]
  have := x.isLt
  show _ = 57505
  simp only [BitVec.ofNat_eq_ofNat, BitVec.toNat_ofNat]
  omega

theorem ldVDt (x : RegIdx) : Statement (.ldVDt x) := by
  refine statement_intro 17 ?_ (congrArg Instr.ldVDt (fieldX_encodeXKK _ _ _))
  refine (and_F0FF _).trans ?_
  rw [encode, toNat_encodeXKK]
  have := x.isLt
  show _ = 61447
  simp only [BitVec.ofNat_eq_ofNat, BitVec.toNat_ofNat]
  omega

theorem ldDtV (x : RegIdx) : Statement (.ldDtV x) := by
  refine statement_intro 18 ?_ (congrArg Instr.ldDtV (fieldX_encodeXKK _ _ _))
  refine (and_F0FF _).trans ?_
  rw [encode, toNat_encodeXKK]
  have := x.isLt
  show _ = 61461
  simp only [BitVec.ofNat_eq_ofNat, BitVec.toNat_ofNat]
  omega

theorem addI (x : RegIdx) : Statement (.addI x) := by
  refine statement_intro 19 ?_ (congrArg Instr.addI (fieldX_encodeXKK _ _ _))
  refine (and_F0FF _).trans ?_
  rw [encode, toNat_encodeXKK]
  have := x.isLt
  show _ = 61470
  simp only [BitVec.ofNat_eq_ofNat, BitVec.toNat_ofNat]
  omega

theorem ldVMem (x : RegIdx) : Statement (.ldVMem x) := by
  refine statement_intro 20 ?_ (congrArg Instr.ldVMem (fieldX_encodeXKK _ _ _))
  refine (and_F0FF _).trans ?_
  rw [encode, toNat_encodeXKK]
  have := x.isLt
  show _ = 61541
  simp only [BitVec.ofNat_eq_ofNat, BitVec.toNat_ofNat]
  omega

end Sys2Proof.Laws.Encoding
end

