-- ==== Sys2Proof/Laws/Step.lean ====
section
/-! SUPPORT. What a fetch and a step can do, said once (spec/30_encoding.md R89, R91, R92). -/

namespace Sys2Proof.Machine

open Sys2Proof.Safety

/-- Everything a fetch can answer (R89). -/
theorem State.fetch_eq (s : State) :
    s.fetch =
      if s.pc.toNat ≥ 4096 then .error (.outOfBounds s.pc.toNat)
      else if s.pc.toNat + 1 ≥ 4096 then .error (.outOfBounds (s.pc.toNat + 1))
      else .ok (wordAtPc s) := by
  simp only [State.fetch, State.memRead]
  split_ifs <;> rfl

/-- A step with a fault latched changes nothing (R92). -/
theorem step_faulted {s : State} {r : FaultRecord} (h : s.fault = some r) : step s = .next s := by
  simp [step, h]

/-- A step whose first byte is out of memory. -/
theorem step_fetch_high {s : State} (h : s.fault = none) (hpc : s.pc.toNat ≥ 4096) :
    step s = .next (s.takeFault none (.outOfBounds s.pc.toNat)) := by
  simp [step, h, State.fetch_eq, hpc]

/-- A step whose second byte alone is out of memory. -/
theorem step_fetch_edge {s : State} (h : s.fault = none) (hpc : s.pc.toNat < 4096) (hpc1 : s.pc.toNat + 1 ≥ 4096) :
    step s = .next (s.takeFault none (.outOfBounds (s.pc.toNat + 1))) := by
  simp only [step, h, State.fetch_eq, ge_iff_le, if_neg (Nat.not_le.mpr hpc), if_pos hpc1]

/-- A step whose word is no instruction. -/
theorem step_unknown {s : State} (h : s.fault = none) (hpc : s.pc.toNat + 1 < 4096) {e : DecodeReject}
    (hd : decodeWord (wordAtPc s) = .error e) : step s = .next (s.takeFault (some (wordAtPc s)) .unknownOpcode) := by
  simp only [step, h, State.fetch_eq, ge_iff_le, if_neg (by omega : ¬ 4096 ≤ s.pc.toNat),
    if_neg (by omega : ¬ 4096 ≤ s.pc.toNat + 1), hd]

/-- A step whose word decodes runs the instruction. -/
theorem step_exec {s : State} (h : s.fault = none) (hpc : s.pc.toNat + 1 < 4096) {i : Instr}
    (hd : decodeWord (wordAtPc s) = .ok i) : step s = exec i s := by
  simp only [step, h, State.fetch_eq, ge_iff_le, if_neg (by omega : ¬ 4096 ≤ s.pc.toNat),
    if_neg (by omega : ¬ 4096 ≤ s.pc.toNat + 1), hd]

/-- Every step is one of these five. -/
theorem step_cases (s : State) :
    (s.fault ≠ none ∧ step s = .next s) ∨
    (s.fault = none ∧ s.pc.toNat ≥ 4096 ∧ step s = .next (s.takeFault none (.outOfBounds s.pc.toNat))) ∨
    (s.fault = none ∧ s.pc.toNat < 4096 ∧ s.pc.toNat + 1 ≥ 4096 ∧
      step s = .next (s.takeFault none (.outOfBounds (s.pc.toNat + 1)))) ∨
    (s.fault = none ∧ s.pc.toNat + 1 < 4096 ∧ (∃ e, decodeWord (wordAtPc s) = .error e) ∧
      step s = .next (s.takeFault (some (wordAtPc s)) .unknownOpcode)) ∨
    (s.fault = none ∧ s.pc.toNat + 1 < 4096 ∧ ∃ i, decodeWord (wordAtPc s) = .ok i ∧ step s = exec i s) := by
  cases hf : s.fault with
  | some r => exact .inl ⟨by simp, step_faulted hf⟩
  | none =>
    refine .inr ?_
    by_cases h1 : s.pc.toNat ≥ 4096
    · exact .inl ⟨rfl, h1, step_fetch_high hf h1⟩
    · by_cases h2 : s.pc.toNat + 1 ≥ 4096
      · exact .inr (.inl ⟨rfl, by omega, h2, step_fetch_edge hf (by omega) h2⟩)
      · cases hd : decodeWord (wordAtPc s) with
        | error e => exact .inr (.inr (.inl ⟨rfl, by omega, ⟨e, rfl⟩, step_unknown hf (by omega) hd⟩))
        | ok i => exact .inr (.inr (.inr ⟨rfl, by omega, i, rfl, step_exec hf (by omega) hd⟩))

end Sys2Proof.Machine
end

