-- ==== Sys2Proof/Tests/Slice0.lean ====
section
/-! SUPPORT. The model's own tests. Expected results come from spec/95_test_vectors.md (T1 to T7, S1 to S10), whose vectors
are worked by hand from the rules; each test names its rows. Then, for every obligation with hypotheses, a witness that meets
them, one per clause, at the boundary of its range. -/

namespace Sys2Proof.Tests

open Sys2Proof.Machine Sys2Proof.Safety

/-! ### Helpers: small states -/

/-- The reset state with some registers set. -/
def withRegs (regs : List (RegIdx × Byte)) (s : State) : State :=
  regs.foldl (fun t r => t.writeV r.1 r.2) s

/-- Some bytes in memory from an address upward. -/
def withBytes (a : Nat) : List Byte → State → State
  | [], s => s
  | b :: bs, s => withBytes (a + 1) bs (s.placeByte a b)

/-- The reset state at an address, with registers set. -/
def machine (pc : Word) (regs : List (RegIdx × Byte)) : State :=
  withRegs regs (State.reset.setPc pc)

/-- One step on a word placed where the machine fetches, and a check of the state after it. -/
def steps (w : Nat) (s : State) (check : State → Bool) : Bool :=
  match step (s.withFetchWord 16 w) with
  | .next t => check t
  | .fault _ => false
  | .refused _ => false

/-- What the latch holds: the fault, the address fetched from and the word. -/
def latched (t : State) (k : FaultKind) (pc : Word) (op : Option Word) : Bool :=
  t.fault == some ⟨k, pc, op⟩ && t.pc == pc

/-- A stack of 16 return addresses. -/
def fullStack (s : State) : State :=
  { s with stack := List.replicate 16 0x206 }

/-! ### Well-formedness (30_encoding.md R81, R82) -/

theorem test_ill_formed_reg : (Operand.reg 16).fits = false := by decide
theorem test_ill_formed_imm8 : (Operand.imm8 256).fits = false := by decide
theorem test_ill_formed_addr12 : (Operand.addr12 4096).fits = false := by decide
theorem test_ill_formed_rows : (Operand.rows 16).fits = false := by decide
theorem test_well_formed_limits :
    (Instr.drw 15 15 15).WellFormed = true ∧ (Instr.seImm 15 255).WellFormed = true ∧ (Instr.jp 4095).WellFormed = true := by
  decide

/-! ### Decoding (30_encoding.md R83; 95_test_vectors.md T1) -/

theorem test_decode_cls : decodeWord 0b0000000011100000 = .ok .cls := by decide
theorem test_decode_ret : decodeWord 0b0000000011101110 = .ok .ret := by decide
theorem test_decode_jp : decodeWord 0b0001001000110100 = .ok (.jp 0x234) := by decide
theorem test_decode_call : decodeWord 0b0010101010111100 = .ok (.call 0xABC) := by decide
theorem test_decode_seImm : decodeWord 0b0011111101000010 = .ok (.seImm 0xF 0x42) := by decide
theorem test_decode_ldImm : decodeWord 0b0110101000101011 = .ok (.ldImm 0xA 0x2B) := by decide
theorem test_decode_addImm : decodeWord 0b0111001000001010 = .ok (.addImm 2 0x0A) := by decide
theorem test_decode_ldReg : decodeWord 0b1000101010110000 = .ok (.ldReg 0xA 0xB) := by decide
theorem test_decode_andReg : decodeWord 0b1000101010110010 = .ok (.andReg 0xA 0xB) := by decide
theorem test_decode_xorReg : decodeWord 0b1000101010110011 = .ok (.xorReg 0xA 0xB) := by decide
theorem test_decode_addReg : decodeWord 0b1000101010110100 = .ok (.addReg 0xA 0xB) := by decide
theorem test_decode_sub : decodeWord 0b1000101010110101 = .ok (.sub 0xA 0xB) := by decide
theorem test_decode_shr : decodeWord 0b1000101010110110 = .ok (.shr 0xA 0xB) := by decide
theorem test_decode_ldI : decodeWord 0b1010000100100011 = .ok (.ldI 0x123) := by decide
theorem test_decode_drw : decodeWord 0b1101000100100011 = .ok (.drw 1 2 3) := by decide
theorem test_decode_skp : decodeWord 0b1110010110011110 = .ok (.skp 5) := by decide
theorem test_decode_sknp : decodeWord 0b1110010110100001 = .ok (.sknp 5) := by decide
theorem test_decode_ldVDt : decodeWord 0b1111001000000111 = .ok (.ldVDt 2) := by decide
theorem test_decode_ldDtV : decodeWord 0b1111001100010101 = .ok (.ldDtV 3) := by decide
theorem test_decode_addI : decodeWord 0b1111000000011110 = .ok (.addI 0) := by decide
theorem test_decode_ldVMem : decodeWord 0b1111000101100101 = .ok (.ldVMem 1) := by decide

/-- Whether the decoder rejects a word by name. -/
def rejected (op : Word) : Bool :=
  decide (decodeWord op = .error (.unknownOpcode op))

/-- T1's illegal words: those that share the first digit with a row. -/
theorem test_decode_illegal :
    ([0x8AB1, 0x8AB7, 0x00E1, 0x0000, 0xE59F, 0xF055, 0xF00A, 0xFFFF] : List Word).all rejected = true := by
  decide

/-- T1's illegal words: those that share none. -/
theorem test_decode_illegal_digits : ([0x4000, 0x5000, 0x9000, 0xB000, 0xC000] : List Word).all rejected = true := by
  decide

/-- The host's view: the table's word of DRW, and an illegal one. -/
theorem test_decode_table_word :
    decodeTableWord 16 0xD123 = some (.drw 1 2 3) ∧ decodeTableWord 16 0x8AB1 = none := by
  decide

/-! ### Control flow (T2) -/

theorem test_jp : steps 0x1ABC (machine 0x200 []) (fun t => t.pc == 0xABC && t.fault == none) = true := by decide
theorem test_jp_odd :
    steps 0x1ABD (machine 0x200 []) (fun t => latched t (.misalignedTarget 0xABD) 0x200 (some 0x1ABD)) = true := by decide
theorem test_call :
    steps 0x2400 (machine 0xFFE []) (fun t => t.stack == [0x1000] && t.pc == 0x400) = true := by decide
/-- A full stack and an odd target: the target's fault wins (R228). -/
theorem test_call_priority :
    steps 0x2401 (fullStack (machine 0x300 [])) (fun t => latched t (.misalignedTarget 0x401) 0x300 (some 0x2401)) = true ∧
    steps 0x2400 (fullStack (machine 0x300 [])) (fun t =>
      latched t (.stackOverflow 16) 0x300 (some 0x2400) && t.stack.length == 16) = true := by
  decide
theorem test_ret :
    steps 0x00EE { machine 0x212 [] with stack := [0x300, 0x206] } (fun t => t.pc == 0x206 && t.stack == [0x300]) = true := by
  decide
theorem test_ret_empty :
    steps 0x00EE (machine 0x200 []) (fun t => latched t .stackUnderflow 0x200 (some 0x00EE)) = true := by decide
theorem test_seImm :
    steps 0x3000 (machine 0x208 []) (fun t => t.pc == 0x20C) = true ∧
    steps 0x3000 (machine 0x208 [(0, 1)]) (fun t => t.pc == 0x20A) = true := by
  decide
theorem test_seImm_at_end : steps 0x33FF (machine 0xFFE [(3, 0xFF)]) (fun t => t.pc == 0x1002) = true := by decide

/-! ### Registers and arithmetic (T3) -/

theorem test_ldImm :
    steps 0x6A2B (machine 0x200 []) (fun t => t.readV 0xA == 0x2B && t.pc == 0x202) = true := by decide
theorem test_ldImm_vf : steps 0x6F00 (machine 0x200 [(0xF, 0x99)]) (fun t => t.readV 0xF == 0) = true := by decide
theorem test_addImm :
    steps 0x720A (machine 0x200 [(2, 0xFA), (0xF, 0x77)]) (fun t => t.readV 2 == 0x04 && t.readV 0xF == 0x77) = true := by
  decide
theorem test_addImm_vf : steps 0x7F01 (machine 0x200 [(0xF, 0xFF)]) (fun t => t.readV 0xF == 0) = true := by decide
theorem test_ldReg : steps 0x8010 (machine 0x200 [(1, 0x37)]) (fun t => t.readV 0 == 0x37) = true := by decide
theorem test_andReg :
    steps 0x8012 (machine 0x200 [(0, 0xF0), (1, 0x3C), (0xF, 0x55)]) (fun t => t.readV 0 == 0x30 && t.readV 0xF == 0x55) =
      true := by
  decide
theorem test_xorReg :
    steps 0x8013 (machine 0x200 [(0, 0xF0), (1, 0x3C)]) (fun t => t.readV 0 == 0xCC) = true ∧
    steps 0x8443 (machine 0x200 [(4, 0x5A)]) (fun t => t.readV 4 == 0) = true := by
  decide
theorem test_addReg :
    steps 0x8014 (machine 0x200 [(0, 0xC8), (1, 0x64)]) (fun t => t.readV 0 == 0x2C && t.readV 0xF == 1) = true ∧
    steps 0x8334 (machine 0x200 [(3, 0x80)]) (fun t => t.readV 3 == 0 && t.readV 0xF == 1) = true := by
  decide
theorem test_addReg_vf :
    steps 0x8F14 (machine 0x200 [(0xF, 0xFF), (1, 1)]) (fun t => t.readV 0xF == 1) = true ∧
    steps 0x80F4 (machine 0x200 [(0, 0x10), (0xF, 0xF0)]) (fun t => t.readV 0 == 0 && t.readV 0xF == 1) = true := by
  decide
theorem test_sub :
    steps 0x8015 (machine 0x200 [(0, 3), (1, 5)]) (fun t => t.readV 0 == 0xFE && t.readV 0xF == 1) = true ∧
    steps 0x8015 (machine 0x200 [(0, 7), (1, 7), (0xF, 1)]) (fun t => t.readV 0 == 0 && t.readV 0xF == 0) = true := by
  decide
theorem test_sub_vf :
    steps 0x8F15 (machine 0x200 [(0xF, 0x20), (1, 0x10)]) (fun t => t.readV 0xF == 0) = true := by decide
theorem test_shr :
    steps 0x8016 (machine 0x200 [(1, 0x05), (0, 0x33)])
      (fun t => t.readV 0 == 2 && t.readV 1 == 2 && t.readV 0xF == 1) = true := by
  decide
theorem test_shr_vf :
    steps 0x80F6 (machine 0x200 [(0xF, 0x03)]) (fun t => t.readV 0 == 1 && t.readV 0xF == 1) = true ∧
    steps 0x8F16 (machine 0x200 [(1, 0x04), (0xF, 0x99)]) (fun t => t.readV 1 == 2 && t.readV 0xF == 0) = true := by
  decide

/-! ### Index register and memory loads (T4) -/

theorem test_ldI : steps 0xA123 ((machine 0x200 []).setI 0x0FFF) (fun t => t.i == 0x0123) = true := by decide
theorem test_addI :
    steps 0xF31E ((machine 0x200 [(3, 0x10), (0xF, 0x07)]).setI 0x0300) (fun t => t.i == 0x0310 && t.readV 0xF == 7) =
      true := by
  decide
theorem test_addI_wraps : steps 0xF01E ((machine 0x200 [(0, 2)]).setI 0xFFFF) (fun t => t.i == 1) = true := by decide
theorem test_ldVMem :
    steps 0xF165 (withBytes 0xFFE [0xAA, 0xBB] ((machine 0x200 [(2, 9)]).setI 0xFFE))
      (fun t => t.readV 0 == 0xAA && t.readV 1 == 0xBB && t.readV 2 == 9 && t.i == 0xFFE) = true := by
  decide
theorem test_ldVMem_faults :
    steps 0xF265 ((machine 0x200 [(0, 7)]).setI 0xFFE)
      (fun t => latched t (.outOfBounds 0x1000) 0x200 (some 0xF265) && t.readV 0 == 7) = true ∧
    steps 0xF065 ((machine 0x200 []).setI 0xFFFF) (fun t => latched t (.outOfBounds 0xFFFF) 0x200 (some 0xF065)) = true := by
  decide

/-! ### Display (T5) -/

/-- A sprite byte at 0x300, and `I` there. -/
def sprite (bytes : List Byte) (s : State) : State :=
  withBytes 0x300 bytes (s.setI 0x300)

/-- A row of pixels, 0 and 1, from column `x`. -/
def rowIs (t : State) (x y : Nat) : List Nat → Bool
  | [] => true
  | b :: bs => t.fb.pixel x y == (b == 1) && rowIs t (x + 1) y bs

theorem test_cls :
    steps 0x00E0 { machine 0x200 [(0xF, 5)] with fb := State.reset.fb.setPixel 63 31 true }
      (fun t => !t.fb.pixel 63 31 && t.readV 0xF == 5 && t.pc == 0x202) = true := by
  decide
/-- The sprite 0x81 over a row of eight set pixels: a collision, and only the ends cleared. -/
theorem test_drw :
    steps 0xD011
      { sprite [0x81] (machine 0x200 []) with
        fb := drawColumns 0 0 0xFF 0 8 (State.reset.fb, false) |>.1 }
      (fun t => rowIs t 0 0 [0, 1, 1, 1, 1, 1, 1, 0] && t.readV 0xF == 1) = true := by
  decide
/-- The corner pixel, and the fault's order: the sprite read before the grid. -/
theorem test_drw_corner_and_faults :
    steps 0xD011 (sprite [0x01] (machine 0x200 [(0, 56), (1, 31), (0xF, 9)]))
      (fun t => rowIs t 56 31 [0, 0, 0, 0, 0, 0, 0, 1] && t.readV 0xF == 0) = true ∧
    steps 0xD011 (machine 0x200 [(0, 57)]) (fun t => latched t (.displayOutOfRange 57 0 1) 0x200 (some 0xD011)) = true ∧
    steps 0xD012 ((machine 0x200 [(0, 60)]).setI 0xFFF)
      (fun t => latched t (.outOfBounds 0x1000) 0x200 (some 0xD012)) = true := by
  decide

/-! ### Keys and timer (T6) -/

/-- Key 0xF pressed. -/
def keyF (s : State) : State :=
  { s with keys := s.keys.set 15 true }

theorem test_skp :
    steps 0xE29E (keyF (machine 0x208 [(2, 0x0F)])) (fun t => t.pc == 0x20C) = true ∧
    steps 0xE29E (machine 0x208 [(2, 0x0F)]) (fun t => t.pc == 0x20A) = true := by
  decide
theorem test_skp_faults :
    steps 0xE29E (machine 0x200 [(2, 0x10)]) (fun t => latched t (.invalidKey 0x10) 0x200 (some 0xE29E)) = true := by decide
theorem test_sknp :
    steps 0xE2A1 (keyF (machine 0x208 [(2, 0x0F)])) (fun t => t.pc == 0x20A) = true ∧
    steps 0xE0A1 (machine 0x300 [(0, 3)]) (fun t => t.pc == 0x304) = true := by
  decide
theorem test_sknp_faults :
    steps 0xE2A1 (machine 0x200 [(2, 0xFF)]) (fun t => latched t (.invalidKey 0xFF) 0x200 (some 0xE2A1)) = true := by decide
theorem test_ldVDt :
    steps 0xF307 { machine 0x200 [] with timer := 0x0F } (fun t => t.readV 3 == 0x0F && t.timer == 0x0F) = true := by decide
theorem test_ldDtV : steps 0xF215 (machine 0x200 [(2, 5)]) (fun t => t.timer == 5) = true := by decide

/-! ### The step and the host's transactions (T6, T7) -/

/-- `pc` = 0x1000: the fetch faults and the record holds no opcode. -/
theorem test_fetch_fault :
    (match step (machine 0x1000 []) with
      | .next t => latched t (.outOfBounds 0x1000) 0x1000 none
      | .fault _ => false
      | .refused _ => false) = true := by
  decide
/-- The empty image: the word 0x0000. -/
theorem test_empty_image :
    (match step State.reset with
      | .next t => latched t .unknownOpcode 0x200 (some 0x0000)
      | .fault _ => false
      | .refused _ => false) = true := by
  decide
theorem test_tick : ({ State.reset with timer := 2 }).tick.timer = 1 ∧ State.reset.tick.timer = 0 := by decide
/-- SetPressed(16, true) is a failure that leaves the session, its latch too, as it was. -/
theorem test_setPressed_fails : transact (.setPressed 16 true) Session.start = .next (Session.start, .failed (.invalidKey 16)) :=
  rfl
theorem test_loadByte_fails :
    transact (.loadByte 4096 1) Session.start = .next (Session.start, .failed (.outOfBounds 4096)) :=
  rfl

/-! ### Witnesses: decoding, the step, the invariant -/

theorem test_witness_DecodeOfEncodeIsIdentity : (Instr.ldVMem 15).WellFormed = true := by decide
theorem test_witness_DecodedWordIsTheEncoding : decodeWord 0xDFFF = .ok (.drw 15 15 15) := by decide

/-- A state with a fault latched. -/
def faulted : State :=
  (machine 0x200 []).takeFault (some 0x00EE) .stackUnderflow

theorem test_witness_StepRuns_latched : faulted.fault ≠ none := by decide
theorem test_witness_StepRuns_pc_4096 : (machine 0x1000 []).fault = none ∧ (machine 0x1000 []).pc.toNat ≥ 4096 := by decide
theorem test_witness_StepRuns_pc_4095 : (machine 0xFFF []).fault = none ∧ (machine 0xFFF []).pc.toNat = 4095 := by decide
/-- `pc` = 4094 and a word there that is no instruction. -/
theorem test_witness_StepRuns_rejected :
    (machine 0xFFE []).fault = none ∧ (machine 0xFFE []).pc.toNat + 1 < 4096 ∧
    decodeWord (wordAtPc (machine 0xFFE [])) = .error (.unknownOpcode 0) := by
  decide
/-- `pc` = 4094 and an instruction there. -/
theorem test_witness_StepRuns_decoded :
    let s := (machine 0xFFE []).withFetchWord 16 0x6A2B
    s.fault = none ∧ s.pc.toNat + 1 < 4096 ∧ decodeWord (wordAtPc s) = .ok (.ldImm 0xA 0x2B) := by
  decide
/-- A step that latches no fault: 6A2B. -/
theorem test_witness_StepRuns_ok :
    ∃ t, step ((machine 0x200 []).withFetchWord 16 0x6A2B) = .next t ∧ t.fault = none :=
  ⟨_, rfl, rfl⟩
theorem test_witness_FaultedMachineIgnoresStep :
    ({ phase := .running, state := faulted } : Session).state.fault = some ⟨.stackUnderflow, 0x200, some 0x00EE⟩ := by decide
/-- A fetch fault: the opcode is absent. -/
theorem test_witness_FaultingStep_fetch :
    (machine 0xFFF []).fault = none ∧
    ∃ t, step (machine 0xFFF []) = .next t ∧ t.fault = some ⟨.outOfBounds 4096, 0xFFF, none⟩ :=
  ⟨by decide, _, rfl, by decide⟩
/-- A fault after the fetch. -/
theorem test_witness_FaultingStep_decode :
    State.reset.fault = none ∧
    ∃ t, step State.reset = .next t ∧ t.fault = some ⟨.unknownOpcode, 0x200, some 0⟩ :=
  ⟨by decide, _, rfl, by decide⟩
theorem test_witness_StepFaultsInPriorityOrder : State.reset.fault = none := by decide
theorem test_witness_UnmatchedWord :
    let s := (machine 0xFFE []).withFetchWord 16 0xFFFF
    s.fault = none ∧ s.pc.toNat + 1 < 4096 ∧ ∀ r ∈ opcodeTable, wordAtPc s &&& r.mask ≠ r.pattern := by
  decide
theorem test_witness_EveryInstruction_effect : expectedFault (.jp 0xFFE) State.reset = none := by decide
theorem test_witness_EveryInstruction_fault :
    expectedFault .ret State.reset = some .stackUnderflow := by decide

theorem test_witness_reset_inv : StateInv State.reset :=
  ⟨⟨List.Pairwise.nil, nofun⟩, by decide, nofun, by decide⟩
theorem test_witness_StepKeepsTheInvariant : StateInv State.reset ∧ ∃ t, step State.reset = .next t :=
  ⟨test_witness_reset_inv, _, rfl⟩
theorem test_witness_TransactionsKeepTheInvariant :
    StateInv Session.start.state ∧ ∃ u' r, transact .step Session.start = .next (u', r) :=
  ⟨test_witness_reset_inv, _, _, rfl⟩
/-- A latched fault, and transactions of every kind but `Reset` after it. -/
theorem test_witness_LatchedFault :
    let ts : List Transaction := [.step, .tick, .setPressed 3 true, .readStatus]
    Transaction.reset ∉ ts ∧ faulted.fault = some ⟨.stackUnderflow, 0x200, some 0x00EE⟩ ∧
    ∃ u', runTransactions ts { phase := .running, state := faulted } = .next u' :=
  ⟨by decide, by decide, _, rfl⟩

/-! ### Witnesses: what instructions write and read -/

theorem test_witness_WritesOnly_effect :
    (∃ t, exec (.ldImm 1 2) State.reset = .next t) ∧ expectedFault (.ldImm 1 2) State.reset = none :=
  ⟨⟨_, rfl⟩, by decide⟩
theorem test_witness_WritesOnly_fault :
    (∃ t, exec .ret State.reset = .next t) ∧ expectedFault .ret State.reset ≠ none :=
  ⟨⟨_, rfl⟩, by decide⟩
theorem test_witness_OtherRegisters :
    (∃ t, exec (.shr 1 2) State.reset = .next t) ∧ ¬ destinations (.shr 1 2) 3 :=
  ⟨⟨_, rfl⟩, by simp [destinations]⟩
/-- 6F01 from reset: VF changes. -/
theorem test_witness_FlagRegisterWriters :
    ∃ t, exec (.ldImm 0xF 1) State.reset = .next t ∧ t.readV 0xF ≠ State.reset.readV 0xF :=
  ⟨_, rfl, by decide⟩
theorem test_witness_StepWritesNoMemory : ∃ t, step State.reset = .next t :=
  ⟨_, rfl⟩
/-- One instruction that meets the premises of all of DevicesAreSeenOnlyByTheirInstructions' clauses. -/
theorem test_witness_Devices :
    (∀ x, Instr.ldImm 1 2 ≠ .skp x) ∧ (∀ x, Instr.ldImm 1 2 ≠ .sknp x) ∧ (∀ x, Instr.ldImm 1 2 ≠ .ldVDt x) ∧
    (∀ x, Instr.ldImm 1 2 ≠ .ldDtV x) ∧ (∀ x y n, Instr.ldImm 1 2 ≠ .drw x y n) ∧ Instr.ldImm 1 2 ≠ .cls ∧
    ∃ t, exec (.ldImm 1 2) State.reset = .next t :=
  ⟨nofun, nofun, nofun, nofun, nofun, nofun, _, rfl⟩

/-! ### Witnesses: control flow, registers, memory -/

theorem test_witness_Ret_one : ({ State.reset with stack := [0x206] }).stack = [] ++ [0x206] := by decide
theorem test_witness_Ret_full : (fullStack State.reset).stack = List.replicate 15 0x206 ++ [0x206] := by decide
theorem test_witness_Ret_empty : State.reset.stack = [] := by decide
theorem test_witness_Jp_even : (0 : Addr12).toNat % 2 = 0 ∧ (0xFFE : Addr12).toNat % 2 = 0 := by decide
theorem test_witness_Jp_odd : (1 : Addr12).toNat % 2 = 1 ∧ (0xFFF : Addr12).toNat % 2 = 1 := by decide
theorem test_witness_Call_depth_15 :
    (0xFFE : Addr12).toNat % 2 = 0 ∧ ({ State.reset with stack := List.replicate 15 0x206 }).stack.length < 16 := by decide
theorem test_witness_Call_odd : (0xFFF : Addr12).toNat % 2 = 1 := by decide
theorem test_witness_Call_depth_16 :
    (0xFFE : Addr12).toNat % 2 = 0 ∧ (fullStack State.reset).stack.length = 16 := by decide
theorem test_witness_CallThenRet : (0x300 : Addr12).toNat % 2 = 0 ∧ State.reset.stack.length < 16 := by decide
theorem test_witness_Se_equal : (State.reset.readV 3).toNat = (0 : Byte).toNat := by decide
theorem test_witness_Se_differs : (State.reset.readV 3).toNat ≠ (1 : Byte).toNat := by decide
/-- `AdvancesBy`'s premise at the highest `pc` from which an instruction runs, for both distances. -/
theorem test_witness_AdvancesBy : (machine 0xFFE []).pc.toNat + 2 < 65536 ∧ (machine 0xFFE []).pc.toNat + 4 < 65536 := by
  decide
/-- The register premises of the register statements: `r ≠ x`, `x ≠ 0xF`, `y ≠ 0xF`. -/
theorem test_witness_registers :
    (14 : RegIdx) ≠ 0xF ∧ (0 : RegIdx) ≠ 0xF ∧ (2 : RegIdx) ≠ 14 ∧ (2 : RegIdx) ≠ 0 ∧ (2 : RegIdx) ≠ 0xF := by decide
/-- The carry's boundary: 255 and 256. -/
theorem test_witness_AddReg :
    let s := machine 0x200 [(0, 0xFF), (1, 0), (2, 1)]
    (s.readV 0).toNat + (s.readV 1).toNat = 255 ∧ (s.readV 0).toNat + (s.readV 2).toNat = 256 := by
  decide
theorem test_witness_LdVMem_fits :
    ((machine 0x200 []).setI 0xFF0).i.toNat + (0xF : RegIdx).toNat = 4095 ∧ (0xF : RegIdx).toNat ≤ (0xF : RegIdx).toNat := by
  decide
theorem test_witness_LdVMem_other_register :
    ((machine 0x200 []).setI 0xFFF).i.toNat + (0 : RegIdx).toNat < 4096 ∧ (0 : RegIdx).toNat < (1 : RegIdx).toNat := by decide
theorem test_witness_LdVMem_past_memory :
    ((machine 0x200 []).setI 0xFF1).i.toNat + (0xF : RegIdx).toNat = 4096 := by decide

/-! ### Witnesses: display -/

theorem test_witness_Drw_no_row : (0 : Nibble).toNat = 0 := by decide
/-- The last byte of memory, the rightmost and lowest block of two rows. -/
theorem test_witness_Drw_on_grid :
    let s := (machine 0x200 [(0, 56), (1, 30)]).setI 0xFFE
    s.i.toNat + (2 : Nibble).toNat - 1 = 4095 ∧ (s.readV 0).toNat + 7 = 63 ∧ (s.readV 1).toNat + (2 : Nibble).toNat - 1 = 31 := by
  decide
theorem test_witness_Drw_past_memory :
    let s := (machine 0x200 []).setI 0xFFF
    1 ≤ (2 : Nibble).toNat ∧ s.i.toNat + (2 : Nibble).toNat - 1 = 4096 := by
  decide
theorem test_witness_Drw_past_columns :
    let s := machine 0x200 [(0, 57)]
    1 ≤ (1 : Nibble).toNat ∧ s.i.toNat + (1 : Nibble).toNat - 1 < 4096 ∧ (s.readV 0).toNat + 7 = 64 := by
  decide
theorem test_witness_Drw_past_rows :
    let s := machine 0x200 [(1, 31)]
    1 ≤ (2 : Nibble).toNat ∧ s.i.toNat + (2 : Nibble).toNat - 1 < 4096 ∧ (s.readV 1).toNat + (2 : Nibble).toNat - 1 = 32 := by
  decide

/-- Pixel (0, 0) set, and `I` at a byte 0x80. -/
def setAndSprite : State :=
  sprite [0x80] { machine 0x200 [] with fb := State.reset.fb.setPixel 0 0 true }

/-- A draw that clears a set pixel: the premise of VF = 1. -/
theorem test_witness_Drw_collision :
    ∃ t, exec (.drw 0 1 1) setAndSprite = .next t ∧
      ∃ X Y, setAndSprite.fb.pixel X Y = true ∧ t.fb.pixel X Y = false :=
  ⟨_, rfl, 0, 0, by decide, by decide⟩
/-- A draw of no row clears none: the premise of VF = 0. -/
theorem test_witness_Drw_no_collision :
    ∃ t, exec (.drw 0 1 0) State.reset = .next t ∧
      ¬ ∃ X Y, State.reset.fb.pixel X Y = true ∧ t.fb.pixel X Y = false :=
  ⟨_, rfl, fun ⟨_, _, h, h'⟩ => by cases h.symm.trans h'⟩
theorem test_witness_DrawingTwice :
    (0 : RegIdx) ≠ 0xF ∧ (1 : RegIdx) ≠ 0xF ∧ expectedFault (.drw 0 1 1) setAndSprite = none ∧
    ∃ t u, exec (.drw 0 1 1) setAndSprite = .next t ∧ exec (.drw 0 1 1) t = .next u :=
  ⟨by decide, by decide, by decide, _, _, rfl, rfl⟩

/-! ### Witnesses: keys and the host's transactions -/

theorem test_witness_Keys_15 : ((machine 0x200 [(2, 15)]).readV 2).toNat < 16 := by decide
theorem test_witness_Keys_16 : ((machine 0x200 [(2, 16)]).readV 2).toNat > 15 := by decide
theorem test_witness_SetPressed_15 : (15 : Byte).toNat < 16 ∧ (14 : Fin 16).val ≠ (15 : Byte).toNat := by decide
theorem test_witness_SetPressed_16 : (16 : Byte).toNat > 15 := by decide
theorem test_witness_LoadByte_last : State.reset.mem.wf ∧ 4095 < 4096 ∧ 4094 ≠ 4095 := by decide
theorem test_witness_LoadByte_past : 4096 ≥ 4096 := by decide
theorem test_witness_Boot_longest : (List.replicate 3584 (0 : Byte)).length ≤ 3584 :=
  List.length_replicate.le
theorem test_witness_Boot_too_long : (List.replicate 3585 (0 : Byte)).length > 3584 :=
  List.length_replicate.ge
theorem test_witness_EndedRuns_faulted : Faulted faulted := by decide
/-- The word 0x1FFE at 0xFFE: a jump to itself at the last address from which an instruction runs. -/
def parked : State :=
  { machine 0xFFE [] with mem := [(0xFFE, 0x1F), (0xFFF, 0xFE)] }

theorem test_witness_EndedRuns_parked : Parked parked ∧ parked.mem.wf ∧ EvenUpTo 0x1002 parked.pc :=
  ⟨⟨by decide, by decide, by decide⟩, by decide, by decide⟩
theorem test_witness_EndedRuns_parked_inv : StateInv parked :=
  ⟨test_witness_EndedRuns_parked.2.1, by decide, nofun, test_witness_EndedRuns_parked.2.2⟩

end Sys2Proof.Tests
end

/-! SUPPORT. The host's transactions on the timer and the keys (spec/20_memory.md R63, R64): what frames compose to, what
one tick and one key change do, and the statements about them. -/

namespace Sys2Proof.Safety

open Sys2Proof.Machine

/-! ### Frames -/

/-- Every element agrees with itself. -/
theorem Part.same_refl (s : State) (p : Part) : p.same s s := by
  cases p <;> simp [Part.same]

/-- Agreement on an element passes through a middle state. -/
theorem Part.same_trans {s t u : State} {p : Part} (hst : p.same s t) (htu : p.same t u) : p.same s u := by
  cases p with
  | v | fb | mem => simp_all only [Part.same, implies_true]
  | i | pc | stack | timer | keys | fault => exact Eq.trans htu hst

/-- Any frame allows changing nothing. -/
theorem OnlyChanges.refl (parts : List Part) (s : State) : OnlyChanges parts s s :=
  fun p _ => Part.same_refl s p

/-- Two changes within one frame stay within it. -/
theorem OnlyChanges.trans {parts : List Part} {s t u : State} (hst : OnlyChanges parts s t)
    (htu : OnlyChanges parts t u) : OnlyChanges parts s u :=
  fun p hp => Part.same_trans (hst p hp) (htu p hp)

/-- Replacing the timer changes the timer only. -/
theorem onlyChanges_timer (s : State) (b : Byte) : OnlyChanges [.timer] s { s with timer := b } := by
  intro p hp
  cases p with
  | timer => simp at hp
  | _ => simp [Part.same, State.readV]

/-- Replacing the key state changes the keys only. -/
theorem onlyChanges_keys (s : State) (ks : Vector Bool Config.numKeys) :
    OnlyChanges [.keys] s { s with keys := ks } := by
  intro p hp
  cases p with
  | keys => simp at hp
  | _ => simp [Part.same, State.readV]

end Sys2Proof.Safety

namespace Sys2Proof.Machine

open Sys2Proof.Safety

/-! ### Ticks (R63) -/

theorem State.tick_timer_toNat (s : State) : s.tick.timer.toNat = s.timer.toNat - 1 := by
  have hlt : s.timer.toNat < 256 := s.timer.isLt
  rw [State.tick_eq, BitVec.toNat_ofNat, Nat.mod_eq_of_lt (by omega)]

theorem State.onlyChanges_tick (s : State) : OnlyChanges [.timer] s s.tick := by
  rw [State.tick_eq]
  exact onlyChanges_timer s _

/-- Since a tick floors at zero, `n` of them take off `n`, floored at zero. -/
theorem State.iterate_tick_timer_toNat (n : Nat) (s : State) :
    (State.tick^[n] s).timer.toNat = s.timer.toNat - n := by
  induction n generalizing s with
  | zero => rfl
  | succ n ih =>
    rw [Function.iterate_succ_apply, ih, State.tick_timer_toNat]
    omega

theorem State.onlyChanges_iterate_tick (n : Nat) (s : State) : OnlyChanges [.timer] s (State.tick^[n] s) := by
  induction n generalizing s with
  | zero => exact .refl _ s
  | succ n ih => exact s.onlyChanges_tick.trans (ih s.tick)

/-- A tick is answered whatever the phase and the latch hold. -/
theorem transact_tick (u : Session) : transact .tick u = .next ({ u with state := u.state.tick }, .none) := rfl

/-- A sequence goes on from the session its first transaction leaves (R241). -/
theorem runTransactions_cons {t : Transaction} {u u' : Session} {r : Response} (ts : List Transaction)
    (h : transact t u = .next (u', r)) : runTransactions (t :: ts) u = runTransactions ts u' := by
  simp only [runTransactions, h]

theorem runTransactions_replicate_tick (n : Nat) (u : Session) :
    runTransactions (List.replicate n .tick) u = .next { u with state := State.tick^[n] u.state } := by
  induction n generalizing u with
  | zero => rfl
  | succ n ih => rw [List.replicate_succ, runTransactions_cons _ (transact_tick u), ih, Function.iterate_succ_apply]

/-- Settles O41: one tick by `State.tick_eq`, and `n` ticks as the `n`-fold iterate of it, by induction. -/
theorem ticksCountTheTimerDown : Obligations.TicksCountTheTimerDown :=
  ⟨fun u => ⟨_, transact_tick u, rfl, u.state.tick_timer_toNat, u.state.onlyChanges_tick⟩,
    fun n u => ⟨_, runTransactions_replicate_tick n u, State.iterate_tick_timer_toNat n u.state,
      State.onlyChanges_iterate_tick n u.state⟩⟩

/-! ### Key changes (R64) -/

theorem transact_setPressed_ok (u : Session) {k : Byte} (b : Bool) (hk : k.toNat < 16) :
    transact (.setPressed k b) u =
      .next ({ u with state := { u.state with keys := u.state.keys.set k.toNat b } }, .ok) := by
  simp only [transact, State.setPressed_eq, dif_pos hk, hostWrite]

theorem transact_setPressed_failed (u : Session) {k : Byte} (b : Bool) (hk : k.toNat > 15) :
    transact (.setPressed k b) u = .next (u, .failed (.invalidKey k)) := by
  simp only [transact, State.setPressed_eq, dif_neg (show ¬ k.toNat < 16 by omega), hostWrite]

/-- Settles O42: the two answers of `State.setPressed_eq`, below 16 and past 15. -/
theorem setPressedSetsOneKey : Obligations.SetPressedSetsOneKey := by
  refine ⟨fun u k b hk => ⟨_, transact_setPressed_ok u b hk, rfl, ?_, ?_, onlyChanges_keys u.state _⟩,
    fun u k b hk => transact_setPressed_failed u b hk⟩
  · exact Vector.getElem_set_self hk
  · intro j hj
    exact Vector.getElem_set_ne hk j.isLt (Ne.symm hj)

end Sys2Proof.Machine

/-! SUPPORT. Decoding by rows (spec/30_encoding.md R83, R84): every instruction belongs to one row of the table, a word decodes
to it exactly when that row accepts the word with the instruction's operands as its fields, and such a word is the
instruction's encoding. -/

namespace Sys2Proof

/-! ### The fields of a word against operands (R81) -/

theorem fieldX_eq_iff (op : Word) (x : RegIdx) : fieldX op = x ↔ x.toNat = op.toNat / 256 % 16 := by
  rw [← BitVec.toNat_inj, toNat_fieldX, eq_comm]

theorem fieldY_eq_iff (op : Word) (y : RegIdx) : fieldY op = y ↔ y.toNat = op.toNat / 16 % 16 := by
  rw [← BitVec.toNat_inj, toNat_fieldY, eq_comm]

theorem fieldN_eq_iff (op : Word) (n : Nibble) : fieldN op = n ↔ n.toNat = op.toNat % 16 := by
  rw [← BitVec.toNat_inj, toNat_fieldN, eq_comm]

theorem fieldKK_eq_iff (op : Word) (kk : Byte) : fieldKK op = kk ↔ kk.toNat = op.toNat % 256 := by
  rw [← BitVec.toNat_inj, toNat_fieldKK, eq_comm]

theorem fieldNNN_eq_iff (op : Word) (nnn : Addr12) : fieldNNN op = nnn ↔ nnn.toNat = op.toNat % 4096 := by
  rw [← BitVec.toNat_inj, toNat_fieldNNN, eq_comm]

/-! ### The row of an instruction (R83) -/

theorem Instr.ctorIdx_lt (i : Instr) : i.ctorIdx < opcodeTable.length := by
  cases i <;> exact Nat.le_of_ble_eq_true rfl

/-- The row of R83 an instruction belongs to: the constructors of `Instr` stand in the table's order. -/
def Instr.row (i : Instr) : OpcodeRow :=
  opcodeTable.get ⟨i.ctorIdx, i.ctorIdx_lt⟩

theorem Instr.row_mem (i : Instr) : i.row ∈ opcodeTable :=
  List.get_mem _ _

/-- Whatever the word, a row builds an instruction that belongs to it. -/
theorem row_build {r : OpcodeRow} (hr : r ∈ opcodeTable) (op : Word) : (r.build op).row = r := by
  obtain ⟨k, rfl⟩ := List.mem_iff_get.mp hr
  change Fin 21 at k
  fin_cases k <;> rfl

/-- A word decodes to an instruction exactly when the instruction's own row accepts the word and builds it (R83). -/
theorem decodeWord_eq_ok_iff_row (op : Word) (i : Instr) :
    decodeWord op = .ok i ↔ op &&& i.row.mask = i.row.pattern ∧ i.row.build op = i := by
  rw [decodeWord_eq_ok_iff]
  constructor
  · rintro ⟨r, hr, hacc, rfl⟩
    rw [row_build hr, ← OpcodeRow.accepts_iff]
    exact ⟨hacc, rfl⟩
  · rintro ⟨hacc, hbuild⟩
    exact ⟨i.row, i.row_mem, (OpcodeRow.accepts_iff _ _).mpr hacc, hbuild⟩

/-! ### Row by row -/

theorem decodeWord_cls_iff (op : Word) : decodeWord op = .ok .cls ↔ op &&& 0xFFFF = 0x00E0 :=
  (decodeWord_eq_ok_iff_row op .cls).trans (and_iff_left rfl)

theorem decodeWord_ret_iff (op : Word) : decodeWord op = .ok .ret ↔ op &&& 0xFFFF = 0x00EE :=
  (decodeWord_eq_ok_iff_row op .ret).trans (and_iff_left rfl)

theorem decodeWord_jp_iff (op : Word) (nnn : Addr12) :
    decodeWord op = .ok (.jp nnn) ↔
      op &&& 0xF000 = 0x1000 ∧ nnn.toNat = op.toNat % 4096 := by
  rw [decodeWord_eq_ok_iff_row, ← fieldNNN_eq_iff, ← Instr.jp.injEq]
  rfl

theorem decodeWord_call_iff (op : Word) (nnn : Addr12) :
    decodeWord op = .ok (.call nnn) ↔
      op &&& 0xF000 = 0x2000 ∧ nnn.toNat = op.toNat % 4096 := by
  rw [decodeWord_eq_ok_iff_row, ← fieldNNN_eq_iff, ← Instr.call.injEq]
  rfl

theorem decodeWord_seImm_iff (op : Word) (x : RegIdx) (kk : Byte) :
    decodeWord op = .ok (.seImm x kk) ↔
      op &&& 0xF000 = 0x3000 ∧ x.toNat = op.toNat / 256 % 16 ∧ kk.toNat = op.toNat % 256 := by
  rw [decodeWord_eq_ok_iff_row, ← fieldX_eq_iff, ← fieldKK_eq_iff, ← Instr.seImm.injEq]
  rfl

theorem decodeWord_ldImm_iff (op : Word) (x : RegIdx) (kk : Byte) :
    decodeWord op = .ok (.ldImm x kk) ↔
      op &&& 0xF000 = 0x6000 ∧ x.toNat = op.toNat / 256 % 16 ∧ kk.toNat = op.toNat % 256 := by
  rw [decodeWord_eq_ok_iff_row, ← fieldX_eq_iff, ← fieldKK_eq_iff, ← Instr.ldImm.injEq]
  rfl

theorem decodeWord_addImm_iff (op : Word) (x : RegIdx) (kk : Byte) :
    decodeWord op = .ok (.addImm x kk) ↔
      op &&& 0xF000 = 0x7000 ∧ x.toNat = op.toNat / 256 % 16 ∧ kk.toNat = op.toNat % 256 := by
  rw [decodeWord_eq_ok_iff_row, ← fieldX_eq_iff, ← fieldKK_eq_iff, ← Instr.addImm.injEq]
  rfl

theorem decodeWord_ldReg_iff (op : Word) (x y : RegIdx) :
    decodeWord op = .ok (.ldReg x y) ↔
      op &&& 0xF00F = 0x8000 ∧ x.toNat = op.toNat / 256 % 16 ∧ y.toNat = op.toNat / 16 % 16 := by
  rw [decodeWord_eq_ok_iff_row, ← fieldX_eq_iff, ← fieldY_eq_iff, ← Instr.ldReg.injEq]
  rfl

theorem decodeWord_andReg_iff (op : Word) (x y : RegIdx) :
    decodeWord op = .ok (.andReg x y) ↔
      op &&& 0xF00F = 0x8002 ∧ x.toNat = op.toNat / 256 % 16 ∧ y.toNat = op.toNat / 16 % 16 := by
  rw [decodeWord_eq_ok_iff_row, ← fieldX_eq_iff, ← fieldY_eq_iff, ← Instr.andReg.injEq]
  rfl

theorem decodeWord_xorReg_iff (op : Word) (x y : RegIdx) :
    decodeWord op = .ok (.xorReg x y) ↔
      op &&& 0xF00F = 0x8003 ∧ x.toNat = op.toNat / 256 % 16 ∧ y.toNat = op.toNat / 16 % 16 := by
  rw [decodeWord_eq_ok_iff_row, ← fieldX_eq_iff, ← fieldY_eq_iff, ← Instr.xorReg.injEq]
  rfl

theorem decodeWord_addReg_iff (op : Word) (x y : RegIdx) :
    decodeWord op = .ok (.addReg x y) ↔
      op &&& 0xF00F = 0x8004 ∧ x.toNat = op.toNat / 256 % 16 ∧ y.toNat = op.toNat / 16 % 16 := by
  rw [decodeWord_eq_ok_iff_row, ← fieldX_eq_iff, ← fieldY_eq_iff, ← Instr.addReg.injEq]
  rfl

theorem decodeWord_sub_iff (op : Word) (x y : RegIdx) :
    decodeWord op = .ok (.sub x y) ↔
      op &&& 0xF00F = 0x8005 ∧ x.toNat = op.toNat / 256 % 16 ∧ y.toNat = op.toNat / 16 % 16 := by
  rw [decodeWord_eq_ok_iff_row, ← fieldX_eq_iff, ← fieldY_eq_iff, ← Instr.sub.injEq]
  rfl

theorem decodeWord_shr_iff (op : Word) (x y : RegIdx) :
    decodeWord op = .ok (.shr x y) ↔
      op &&& 0xF00F = 0x8006 ∧ x.toNat = op.toNat / 256 % 16 ∧ y.toNat = op.toNat / 16 % 16 := by
  rw [decodeWord_eq_ok_iff_row, ← fieldX_eq_iff, ← fieldY_eq_iff, ← Instr.shr.injEq]
  rfl

theorem decodeWord_ldI_iff (op : Word) (nnn : Addr12) :
    decodeWord op = .ok (.ldI nnn) ↔
      op &&& 0xF000 = 0xA000 ∧ nnn.toNat = op.toNat % 4096 := by
  rw [decodeWord_eq_ok_iff_row, ← fieldNNN_eq_iff, ← Instr.ldI.injEq]
  rfl

theorem decodeWord_drw_iff (op : Word) (x y : RegIdx) (n : Nibble) :
    decodeWord op = .ok (.drw x y n) ↔
      op &&& 0xF000 = 0xD000 ∧ x.toNat = op.toNat / 256 % 16 ∧ y.toNat = op.toNat / 16 % 16 ∧ n.toNat = op.toNat % 16 := by
  rw [decodeWord_eq_ok_iff_row, ← fieldX_eq_iff, ← fieldY_eq_iff, ← fieldN_eq_iff, ← Instr.drw.injEq]
  rfl

theorem decodeWord_skp_iff (op : Word) (x : RegIdx) :
    decodeWord op = .ok (.skp x) ↔
      op &&& 0xF0FF = 0xE09E ∧ x.toNat = op.toNat / 256 % 16 := by
  rw [decodeWord_eq_ok_iff_row, ← fieldX_eq_iff, ← Instr.skp.injEq]
  rfl

theorem decodeWord_sknp_iff (op : Word) (x : RegIdx) :
    decodeWord op = .ok (.sknp x) ↔
      op &&& 0xF0FF = 0xE0A1 ∧ x.toNat = op.toNat / 256 % 16 := by
  rw [decodeWord_eq_ok_iff_row, ← fieldX_eq_iff, ← Instr.sknp.injEq]
  rfl

theorem decodeWord_ldVDt_iff (op : Word) (x : RegIdx) :
    decodeWord op = .ok (.ldVDt x) ↔
      op &&& 0xF0FF = 0xF007 ∧ x.toNat = op.toNat / 256 % 16 := by
  rw [decodeWord_eq_ok_iff_row, ← fieldX_eq_iff, ← Instr.ldVDt.injEq]
  rfl

theorem decodeWord_ldDtV_iff (op : Word) (x : RegIdx) :
    decodeWord op = .ok (.ldDtV x) ↔
      op &&& 0xF0FF = 0xF015 ∧ x.toNat = op.toNat / 256 % 16 := by
  rw [decodeWord_eq_ok_iff_row, ← fieldX_eq_iff, ← Instr.ldDtV.injEq]
  rfl

theorem decodeWord_addI_iff (op : Word) (x : RegIdx) :
    decodeWord op = .ok (.addI x) ↔
      op &&& 0xF0FF = 0xF01E ∧ x.toNat = op.toNat / 256 % 16 := by
  rw [decodeWord_eq_ok_iff_row, ← fieldX_eq_iff, ← Instr.addI.injEq]
  rfl

theorem decodeWord_ldVMem_iff (op : Word) (x : RegIdx) :
    decodeWord op = .ok (.ldVMem x) ↔
      op &&& 0xF0FF = 0xF065 ∧ x.toNat = op.toNat / 256 % 16 := by
  rw [decodeWord_eq_ok_iff_row, ← fieldX_eq_iff, ← Instr.ldVMem.injEq]
  rfl

/-- Settles O3: row by row, the lemma of the row's instruction. -/
theorem wordIsItsRowWhenMasked : Obligations.WordIsItsRowWhenMasked :=
  fun op =>
    ⟨decodeWord_cls_iff op, decodeWord_ret_iff op, decodeWord_jp_iff op, decodeWord_call_iff op,
      decodeWord_seImm_iff op, decodeWord_ldImm_iff op, decodeWord_addImm_iff op, decodeWord_ldReg_iff op,
      decodeWord_andReg_iff op, decodeWord_xorReg_iff op, decodeWord_addReg_iff op, decodeWord_sub_iff op,
      decodeWord_shr_iff op, decodeWord_ldI_iff op, decodeWord_drw_iff op, decodeWord_skp_iff op,
      decodeWord_sknp_iff op, decodeWord_ldVDt_iff op, decodeWord_ldDtV_iff op, decodeWord_addI_iff op,
      decodeWord_ldVMem_iff op⟩

/-! ### A word is the encoding of what it decodes to

Each mask with the fields outside it fixes the word, so no bit of a word is lost. Patterns are written as the encoding with
the fields outside the mask 0. -/

theorem encodeN_of_F000 {op : Word} {c : Nibble} {nnn : Addr12}
    (h : op &&& 0xF000#16 = encodeN c 0#12 ∧ nnn.toNat = op.toNat % 4096) : encodeN c nnn = op := by
  obtain ⟨hm, hn⟩ := h
  simp only [and_F000_eq_iff, toNat_encodeN, BitVec.toNat_ofNat, Nat.mul_comm (op.toNat / 4096)] at hm
  apply BitVec.eq_of_toNat_eq
  rw [toNat_encodeN]
  omega

theorem encodeXKK_of_F000 {op : Word} {c : Nibble} {x : RegIdx} {kk : Byte}
    (h : op &&& 0xF000#16 = encodeXKK c 0#4 0#8 ∧ x.toNat = op.toNat / 256 % 16 ∧ kk.toNat = op.toNat % 256) :
    encodeXKK c x kk = op := by
  obtain ⟨hm, hx, hk⟩ := h
  simp only [and_F000_eq_iff, toNat_encodeXKK, BitVec.toNat_ofNat, Nat.mul_comm (op.toNat / 4096)] at hm
  apply BitVec.eq_of_toNat_eq
  rw [toNat_encodeXKK]
  omega

theorem encodeXKK_of_F0FF {op : Word} {c : Nibble} {x : RegIdx} {kk : Byte}
    (h : op &&& 0xF0FF#16 = encodeXKK c 0#4 kk ∧ x.toNat = op.toNat / 256 % 16) : encodeXKK c x kk = op := by
  obtain ⟨hm, hx⟩ := h
  have := kk.isLt
  simp only [and_F0FF_eq_iff, toNat_encodeXKK, BitVec.toNat_ofNat, Nat.mul_comm (op.toNat / 4096)] at hm
  apply BitVec.eq_of_toNat_eq
  rw [toNat_encodeXKK]
  omega

theorem encodeXYN_of_F00F {op : Word} {c n : Nibble} {x y : RegIdx}
    (h : op &&& 0xF00F#16 = encodeXYN c 0#4 0#4 n ∧ x.toNat = op.toNat / 256 % 16 ∧ y.toNat = op.toNat / 16 % 16) :
    encodeXYN c x y n = op := by
  obtain ⟨hm, hx, hy⟩ := h
  have := n.isLt
  simp only [and_F00F_eq_iff, toNat_encodeXYN, BitVec.toNat_ofNat, Nat.mul_comm (op.toNat / 4096)] at hm
  apply BitVec.eq_of_toNat_eq
  rw [toNat_encodeXYN]
  omega

theorem encodeXYN_of_F000 {op : Word} {c n : Nibble} {x y : RegIdx}
    (h : op &&& 0xF000#16 = encodeXYN c 0#4 0#4 0#4 ∧
      x.toNat = op.toNat / 256 % 16 ∧ y.toNat = op.toNat / 16 % 16 ∧ n.toNat = op.toNat % 16) :
    encodeXYN c x y n = op := by
  obtain ⟨hm, hx, hy, hn⟩ := h
  simp only [and_F000_eq_iff, toNat_encodeXYN, BitVec.toNat_ofNat, Nat.mul_comm (op.toNat / 4096)] at hm
  apply BitVec.eq_of_toNat_eq
  rw [toNat_encodeXYN]
  omega

/-- Each instruction has one word (R83). -/
theorem encode_of_decodeWord {op : Word} {i : Instr} (h : decodeWord op = .ok i) : encode i = op := by
  cases i with
  | cls => exact BitVec.eq_of_toNat_eq ((and_FFFF_eq_iff op _).mp ((decodeWord_cls_iff op).mp h)).symm
  | ret => exact BitVec.eq_of_toNat_eq ((and_FFFF_eq_iff op _).mp ((decodeWord_ret_iff op).mp h)).symm
  | jp nnn => exact encodeN_of_F000 ((decodeWord_jp_iff op nnn).mp h)
  | call nnn => exact encodeN_of_F000 ((decodeWord_call_iff op nnn).mp h)
  | seImm x kk => exact encodeXKK_of_F000 ((decodeWord_seImm_iff op x kk).mp h)
  | ldImm x kk => exact encodeXKK_of_F000 ((decodeWord_ldImm_iff op x kk).mp h)
  | addImm x kk => exact encodeXKK_of_F000 ((decodeWord_addImm_iff op x kk).mp h)
  | ldReg x y => exact encodeXYN_of_F00F ((decodeWord_ldReg_iff op x y).mp h)
  | andReg x y => exact encodeXYN_of_F00F ((decodeWord_andReg_iff op x y).mp h)
  | xorReg x y => exact encodeXYN_of_F00F ((decodeWord_xorReg_iff op x y).mp h)
  | addReg x y => exact encodeXYN_of_F00F ((decodeWord_addReg_iff op x y).mp h)
  | sub x y => exact encodeXYN_of_F00F ((decodeWord_sub_iff op x y).mp h)
  | shr x y => exact encodeXYN_of_F00F ((decodeWord_shr_iff op x y).mp h)
  | ldI nnn => exact encodeN_of_F000 ((decodeWord_ldI_iff op nnn).mp h)
  | drw x y n => exact encodeXYN_of_F000 ((decodeWord_drw_iff op x y n).mp h)
  | skp x => exact encodeXKK_of_F0FF ((decodeWord_skp_iff op x).mp h)
  | sknp x => exact encodeXKK_of_F0FF ((decodeWord_sknp_iff op x).mp h)
  | ldVDt x => exact encodeXKK_of_F0FF ((decodeWord_ldVDt_iff op x).mp h)
  | ldDtV x => exact encodeXKK_of_F0FF ((decodeWord_ldDtV_iff op x).mp h)
  | addI x => exact encodeXKK_of_F0FF ((decodeWord_addI_iff op x).mp h)
  | ldVMem x => exact encodeXKK_of_F0FF ((decodeWord_ldVMem_iff op x).mp h)

end Sys2Proof

/-! SUPPORT. How an instruction ends (spec/60_exceptions.md R221 to R228): with its effect, or with its fault taken, each
under its condition in closed form; then what a step latches (spec/30_encoding.md R89, R91, R92). -/

namespace Sys2Proof.Machine

open Sys2Proof.Safety

/-! ### The bytes read through `I` (R53) -/

/-- The bytes a load or a draw of `count` bytes reads through `I`, in order. -/
def State.bytesFromI (s : State) (count : Nat) : List Byte :=
  (List.range' 0 count).map fun r => s.mem.read (s.i.toNat + r)

@[simp] theorem State.length_bytesFromI (s : State) (count : Nat) : (s.bytesFromI count).length = count := by
  simp [State.bytesFromI]

theorem State.readFromI_zero_ok (s : State) {count : Nat} (h : count = 0 ∨ s.i.toNat + count ≤ 4096) :
    s.readFromI 0 count = .ok (s.bytesFromI count) :=
  State.readFromI_ok s 0 count h

/-! ### The seven instructions that can fault -/

theorem execRet_empty {s : State} (h : s.stack = []) :
    execRet s = .next (s.takeFault (some (encode .ret)) .stackUnderflow) := by
  rw [execRet, State.pop_empty s h, conclude_error]

theorem execRet_append {s : State} {rest : List Word} {w : Word} (h : s.stack = rest ++ [w]) :
    execRet s = .next ({ s with stack := rest }.setPc w) := by
  rw [execRet, State.pop_append s rest w h, conclude_ok]

theorem execJp_odd {nnn : Addr12} (s : State) (h : nnn.toNat % 2 = 1) :
    execJp nnn s =
      .next (s.takeFault (some (encode (.jp nnn))) (.misalignedTarget (BitVec.ofNat 16 nnn.toNat))) := by
  rw [execJp, evenTarget_odd nnn h, conclude_error]

theorem execJp_even {nnn : Addr12} (s : State) (h : nnn.toNat % 2 = 0) :
    execJp nnn s = .next (s.setPc (zext16 nnn)) := by
  rw [execJp, evenTarget_even nnn h, conclude_ok]

theorem execCall_odd {nnn : Addr12} (s : State) (h : nnn.toNat % 2 = 1) :
    execCall nnn s =
      .next (s.takeFault (some (encode (.call nnn))) (.misalignedTarget (BitVec.ofNat 16 nnn.toNat))) := by
  rw [execCall, evenTarget_odd nnn h, conclude_error]

theorem execCall_full {nnn : Addr12} {s : State} (h : nnn.toNat % 2 = 0) (hs : s.stack.length = 16) :
    execCall nnn s = .next (s.takeFault (some (encode (.call nnn))) (.stackOverflow 16)) := by
  simp only [execCall, evenTarget_even nnn h, State.push_full s _ hs, conclude_error]

theorem execCall_ok {nnn : Addr12} {s : State} (h : nnn.toNat % 2 = 0) (hs : s.stack.length ≠ 16) :
    execCall nnn s = .next ({ s with stack := s.stack ++ [s.nextPc] }.setPc (zext16 nnn)) := by
  simp only [execCall, evenTarget_even nnn h, State.push_ok s _ hs, conclude_ok]

theorem execSkp_invalid {x : RegIdx} {s : State} (h : (s.readV x).toNat > 15) :
    execSkp x s = .next (s.takeFault (some (encode (.skp x))) (.invalidKey (s.readV x))) := by
  simp only [execSkp, State.keyPressed_eq, dif_neg (show ¬ (s.readV x).toNat < 16 by omega), conclude_error]

theorem execSkp_ok {x : RegIdx} {s : State} (h : (s.readV x).toNat < 16) :
    execSkp x s = .next (s.skipIf s.keys[(s.readV x).toNat]) := by
  simp only [execSkp, State.keyPressed_eq, dif_pos h, conclude_ok]

theorem execSknp_invalid {x : RegIdx} {s : State} (h : (s.readV x).toNat > 15) :
    execSknp x s = .next (s.takeFault (some (encode (.sknp x))) (.invalidKey (s.readV x))) := by
  simp only [execSknp, State.keyPressed_eq, dif_neg (show ¬ (s.readV x).toNat < 16 by omega), conclude_error]

theorem execSknp_ok {x : RegIdx} {s : State} (h : (s.readV x).toNat < 16) :
    execSknp x s = .next (s.skipIf (!s.keys[(s.readV x).toNat])) := by
  simp only [execSknp, State.keyPressed_eq, dif_pos h, conclude_ok]

theorem execLdVMem_past {x : RegIdx} {s : State} (h : s.i.toNat + x.toNat ≥ 4096) :
    execLdVMem x s = .next (s.takeFault (some (encode (.ldVMem x))) (.outOfBounds (max s.i.toNat 4096))) := by
  rw [execLdVMem, State.readFromI_error s 0 (x.toNat + 1) (by omega) (by simp only [Config.memSize]; omega),
    conclude_error]
  rfl

theorem execLdVMem_ok {x : RegIdx} {s : State} (h : s.i.toNat + x.toNat < 4096) :
    execLdVMem x s = .next (s.loadV 0 (s.bytesFromI (x.toNat + 1))).advance := by
  rw [execLdVMem, State.readFromI_zero_ok s (by omega), conclude_ok]

theorem execDrw_past_memory {x y : RegIdx} {n : Nibble} {s : State} (h0 : 1 ≤ n.toNat)
    (h : s.i.toNat + n.toNat - 1 ≥ 4096) :
    execDrw x y n s = .next (s.takeFault (some (encode (.drw x y n))) (.outOfBounds (max s.i.toNat 4096))) := by
  rw [execDrw, State.readFromI_error s 0 n.toNat (by omega) (by simp only [Config.memSize]; omega), conclude_error]
  rfl

theorem execDrw_off_grid {x y : RegIdx} {n : Nibble} {s : State} (h0 : 1 ≤ n.toNat)
    (hmem : s.i.toNat + n.toNat ≤ 4096)
    (h : (s.readV x).toNat + 7 > 63 ∨ (s.readV y).toNat + n.toNat - 1 > 31) :
    execDrw x y n s =
      .next (s.takeFault (some (encode (.drw x y n))) (.displayOutOfRange (s.readV x) (s.readV y) n.toNat)) := by
  have hoff : blockOffGrid (s.readV x) (s.readV y) (s.bytesFromI n.toNat).length = true := by
    rwa [State.length_bytesFromI, blockOffGrid_iff]
  rw [execDrw, State.readFromI_zero_ok s (.inr hmem)]
  simp only [State.draw_off s _ _ _ (by rw [State.length_bytesFromI]; omega) hoff, conclude_error,
    State.length_bytesFromI]

/-- A draw in memory and on the grid, or of no row: the display XORed with the sprite, then the collision in VF. -/
theorem execDrw_ok {x y : RegIdx} {n : Nibble} {s : State}
    (h : n.toNat = 0 ∨ s.i.toNat + n.toNat ≤ 4096 ∧ ¬ ((s.readV x).toNat + 7 > 63 ∨ (s.readV y).toNat + n.toNat - 1 > 31)) :
    ∃ c f, execDrw x y n s = .next ({ s with fb := f }.writeFlag (bool01 c)).advance ∧
      (∀ X Y, Framebuffer.pixel f X Y = (Framebuffer.pixel s.fb X Y ^^
        blockBit (s.readV x).toNat (s.readV y).toNat (s.bytesFromI n.toNat) X Y)) ∧
      (c = true ↔ ∃ X Y, blockBit (s.readV x).toNat (s.readV y).toNat (s.bytesFromI n.toNat) X Y = true ∧
        Framebuffer.pixel s.fb X Y = true) := by
  have hread := State.readFromI_zero_ok s (count := n.toNat) (h.imp_right And.left)
  have hdraw : (s.bytesFromI n.toNat).length = 0 ∨
      blockOffGrid (s.readV x) (s.readV y) (s.bytesFromI n.toNat).length = false := by
    rw [State.length_bytesFromI, ← Bool.not_eq_true, blockOffGrid_iff]
    exact h.imp_right And.right
  obtain ⟨c, f, hd, hpix, hcol⟩ := State.draw_ok s (s.readV x) (s.readV y) _ hdraw
  exact ⟨c, f, by simp only [execDrw, hread, hd, conclude_ok], hpix, hcol⟩

/-! ### Every instruction (R228) -/

/-- An instruction whose fault's condition holds takes that fault. -/
theorem exec_of_expectedFault_some {i : Instr} {s : State} {k : FaultKind} (h : expectedFault i s = some k) :
    exec i s = .next (s.takeFault (some (encode i)) k) := by
  cases i with
  | ret =>
    rw [expectedFault] at h
    split_ifs at h with hs
    cases h
    exact execRet_empty hs
  | jp nnn =>
    rw [expectedFault] at h
    split_ifs at h with hodd
    cases h
    exact execJp_odd s hodd
  | call nnn =>
    rw [expectedFault] at h
    split_ifs at h with hodd hfull
    · cases h
      exact execCall_odd s hodd
    · cases h
      exact execCall_full (by omega) hfull
  | drw x y n =>
    rw [expectedFault] at h
    split_ifs at h with hmem hgrid
    · cases h
      exact execDrw_past_memory hmem.1 hmem.2
    · cases h
      exact execDrw_off_grid hgrid.1 (by omega) hgrid.2
  | skp x =>
    rw [expectedFault] at h
    split_ifs at h with hkey
    cases h
    exact execSkp_invalid hkey
  | sknp x =>
    rw [expectedFault] at h
    split_ifs at h with hkey
    cases h
    exact execSknp_invalid hkey
  | ldVMem x =>
    rw [expectedFault] at h
    split_ifs at h with hmem
    cases h
    exact execLdVMem_past hmem
  | cls | seImm | ldImm | addImm | ldReg | andReg | xorReg | addReg | sub | shr | ldI | ldVDt | ldDtV | addI => cases h

/-- An instruction with no fault goes on and leaves the latch as it was. -/
theorem exec_of_expectedFault_none {i : Instr} {s : State} (h : expectedFault i s = none) :
    ∃ t, exec i s = .next t ∧ t.fault = s.fault := by
  cases i with
  | ret =>
    have hs : s.stack ≠ [] := fun hs => by simp [expectedFault, hs] at h
    exact ⟨_, execRet_append (List.dropLast_concat_getLast hs).symm, rfl⟩
  | jp nnn =>
    have heven : nnn.toNat % 2 ≠ 1 := fun hodd => by simp [expectedFault, hodd] at h
    exact ⟨_, execJp_even s (by omega), rfl⟩
  | call nnn =>
    rw [expectedFault] at h
    split_ifs at h with hodd hfull
    exact ⟨_, execCall_ok (by omega) hfull, rfl⟩
  | drw x y n =>
    rw [expectedFault] at h
    split_ifs at h with hmem hgrid
    obtain ⟨c, f, hexec, -, -⟩ := execDrw_ok (x := x) (y := y) (n := n) (s := s) (by omega)
    exact ⟨_, hexec, rfl⟩
  | skp x =>
    rw [expectedFault] at h
    split_ifs at h with hkey
    exact ⟨_, execSkp_ok (by omega), by simp⟩
  | sknp x =>
    rw [expectedFault] at h
    split_ifs at h with hkey
    exact ⟨_, execSknp_ok (by omega), by simp⟩
  | ldVMem x =>
    rw [expectedFault] at h
    split_ifs at h with hmem
    exact ⟨_, execLdVMem_ok (by omega), by rw [State.advance_fault, State.loadV_frame]⟩
  | seImm x kk => exact ⟨_, rfl, State.skipIf_fault s _⟩
  | cls | ldImm | addImm | ldReg | andReg | xorReg | addReg | sub | shr | ldI | ldVDt | ldDtV | addI => exact ⟨_, rfl, rfl⟩

/-! ### The record a step latches (R228) -/

theorem expectedRecord_fetch_high {s : State} (hpc : s.pc.toNat ≥ 4096) :
    expectedRecord s = some ⟨.outOfBounds s.pc.toNat, s.pc, none⟩ :=
  if_pos hpc

theorem expectedRecord_fetch_edge {s : State} (hpc : s.pc.toNat < 4096) (hpc1 : s.pc.toNat + 1 ≥ 4096) :
    expectedRecord s = some ⟨.outOfBounds (s.pc.toNat + 1), s.pc, none⟩ :=
  (if_neg (Nat.not_le.mpr hpc)).trans (if_pos hpc1)

theorem expectedRecord_unknown {s : State} (hpc : s.pc.toNat + 1 < 4096) {e : DecodeReject}
    (hd : decodeWord (wordAtPc s) = .error e) :
    expectedRecord s = some ⟨.unknownOpcode, s.pc, some (wordAtPc s)⟩ := by
  rw [expectedRecord, if_neg (by omega), if_neg (by omega), hd]

theorem expectedRecord_exec {s : State} (hpc : s.pc.toNat + 1 < 4096) {i : Instr}
    (hd : decodeWord (wordAtPc s) = .ok i) :
    expectedRecord s = (expectedFault i s).map fun k => ⟨k, s.pc, some (wordAtPc s)⟩ := by
  rw [expectedRecord, if_neg (by omega), if_neg (by omega), hd]

/-- An expected record holds the address fetched from, and the word there unless the fetch faults. -/
theorem expectedRecord_pc_opcode {s : State} {r : FaultRecord} (h : expectedRecord s = some r) :
    r.pc = s.pc ∧ r.opcode = if s.pc.toNat + 1 < 4096 then some (wordAtPc s) else none := by
  by_cases hpc : s.pc.toNat + 1 < 4096
  · rw [if_pos hpc]
    cases hd : decodeWord (wordAtPc s) with
    | error e =>
      rw [expectedRecord_unknown hpc hd] at h
      cases h
      exact ⟨rfl, rfl⟩
    | ok i =>
      rw [expectedRecord_exec hpc hd, Option.map_eq_some_iff] at h
      obtain ⟨k, -, rfl⟩ := h
      exact ⟨rfl, rfl⟩
  · rw [if_neg hpc]
    by_cases hhigh : s.pc.toNat ≥ 4096
    · rw [expectedRecord_fetch_high hhigh] at h
      cases h
      exact ⟨rfl, rfl⟩
    · rw [expectedRecord_fetch_edge (by omega) (by omega)] at h
      cases h
      exact ⟨rfl, rfl⟩

/-! ### What a step of an unfaulted machine answers -/

/-- Where a record is expected, the step's only write is that record into the latch (R91). -/
theorem step_of_expectedRecord_some {s : State} {r : FaultRecord} (hf : s.fault = none)
    (h : expectedRecord s = some r) : step s = .next { s with fault := some r } := by
  rcases step_cases s with ⟨hn, -⟩ | ⟨-, hpc, hs⟩ | ⟨-, hpc, hpc1, hs⟩ | ⟨-, hpc, ⟨e, hd⟩, hs⟩ | ⟨-, hpc, i, hd, hs⟩
  · exact absurd hf hn
  · rw [expectedRecord_fetch_high hpc] at h
    cases h
    exact hs
  · rw [expectedRecord_fetch_edge hpc hpc1] at h
    cases h
    exact hs
  · rw [expectedRecord_unknown hpc hd] at h
    cases h
    exact hs
  · rw [expectedRecord_exec hpc hd, Option.map_eq_some_iff] at h
    obtain ⟨k, hk, rfl⟩ := h
    rw [hs, exec_of_expectedFault_some hk, encode_of_decodeWord hd]
    rfl

/-- Where no record is expected, the step goes on with the latch empty. -/
theorem step_of_expectedRecord_none {s : State} (hf : s.fault = none) (h : expectedRecord s = none) :
    ∃ t, step s = .next t ∧ t.fault = none := by
  rcases step_cases s with ⟨hn, -⟩ | ⟨-, hpc, -⟩ | ⟨-, hpc, hpc1, -⟩ | ⟨-, hpc, ⟨e, hd⟩, -⟩ | ⟨-, hpc, i, hd, hs⟩
  · exact absurd hf hn
  · simp [expectedRecord_fetch_high hpc] at h
  · simp [expectedRecord_fetch_edge hpc hpc1] at h
  · simp [expectedRecord_unknown hpc hd] at h
  · rw [expectedRecord_exec hpc hd, Option.map_eq_none_iff] at h
    rw [hs, ← hf]
    exact exec_of_expectedFault_none h

/-! ### The `Step` transaction (R89, R91, R92) -/

theorem stepResponse_none {s : State} (h : s.fault = none) : stepResponse s = .ok := by
  rw [stepResponse, h]

theorem stepResponse_some {s : State} {r : FaultRecord} (h : s.fault = some r) : stepResponse s = .faulted r := by
  rw [stepResponse, h]

/-- A `Step` transaction is the step, answered with what its latch then holds. -/
theorem transact_step {u : Session} {t : State} (h : step u.state = .next t) :
    transact .step u = .next ({ phase := .running, state := t }, stepResponse t) := by
  simp only [transact, h]

/-- Settles O8: the record latched is the expected one, and a step that expects a record writes nothing else. -/
theorem faultingStepWritesOnlyTheLatch : Obligations.FaultingStepWritesOnlyTheLatch := by
  intro s t r hf hs hr
  have hexp : expectedRecord s = some r := by
    cases h : expectedRecord s with
    | none =>
      obtain ⟨t', hs', hf'⟩ := step_of_expectedRecord_none hf h
      cases hs.symm.trans hs'
      exact absurd (hf'.symm.trans hr) (by simp)
    | some r' =>
      cases hs.symm.trans (step_of_expectedRecord_some hf h)
      exact hr
  have ht : t = { s with fault := some r } := by
    cases hs.symm.trans (step_of_expectedRecord_some hf hexp)
    rfl
  obtain ⟨hpc, hop⟩ := expectedRecord_pc_opcode hexp
  refine ⟨ht, hpc, hop, hexp, fun ph => ?_⟩
  rw [transact_step (u := ⟨ph, s⟩) hs, stepResponse_some hr]

/-- Settles O6: each way is one of the step's own lemmas. -/
theorem stepRunsTheDecodedInstruction : Obligations.StepRunsTheDecodedInstruction := by
  intro s
  refine ⟨fun hf => ?_, step_fetch_high, fun hf hpc => ?_,
    fun hf hpc => ⟨fun e hd => step_unknown hf hpc hd, fun i hd => step_exec hf hpc hd⟩, fun ph t hs ht => ?_⟩
  · obtain ⟨r, hr⟩ := Option.ne_none_iff_exists'.mp hf
    exact step_faulted hr
  · rw [step_fetch_edge hf (by omega) (by omega), hpc]
    rfl
  · rw [transact_step (u := ⟨ph, s⟩) hs, stepResponse_none ht]

/-- Settles O7: the step answers the same state, and the transaction what that state has latched. -/
theorem faultedMachineIgnoresStep : Obligations.FaultedMachineIgnoresStep := by
  intro u r hr
  have hs : step u.state = .next u.state := step_faulted hr
  refine ⟨hs, ?_⟩
  rw [transact_step hs, stepResponse_some hr]

end Sys2Proof.Machine

/-! SUPPORT. Control flow (spec/41_control_flow.md R110 to R113): the encoding line of an instruction, the frames of the updates
that move `pc` and the stack, how far `pc` moves, and the statements about RET, JP, CALL and SE. -/

namespace Sys2Proof.Safety

open Sys2Proof.Machine

/-! ### Encoding lines (R83) -/

/-- An instruction whose word is its row's has that row's mask and match in its encoding line. -/
theorem encodedAs_row {i : Instr} {word : Word} (hi : Laws.Encoding.Statement i) (hw : encode i = word) :
    EncodedAs i word i.row.mask i.row.pattern := by
  obtain ⟨-, r, hr, hacc, hbuild⟩ := hi
  have hdec : decodeWord (encode i) = .ok i :=
    (decodeWord_eq_ok_iff _ i).mpr ⟨r, hr, (OpcodeRow.accepts_iff r _).mpr hacc, hbuild⟩
  subst hw
  exact ⟨rfl, ((decodeWord_eq_ok_iff_row _ i).mp hdec).1, hdec⟩

/-! ### Faults (R91, R228) -/

theorem faultsWith_of_expectedFault {i : Instr} {k : FaultKind} {s : State} (h : expectedFault i s = some k) :
    FaultsWith i k s :=
  exec_of_expectedFault_some h

/-! ### Frames -/

/-- A frame may be widened. -/
theorem OnlyChanges.mono {parts parts' : List Part} {s t : State} (h : OnlyChanges parts s t) (hsub : parts ⊆ parts') :
    OnlyChanges parts' s t :=
  fun p hp => h p fun hmem => hp (hsub hmem)

/-- Replacing the stack changes the stack only. -/
theorem onlyChanges_stack (s : State) (st : List Word) : OnlyChanges [.stack] s { s with stack := st } := by
  intro p hp
  cases p with
  | stack => simp at hp
  | _ => simp [Part.same, State.readV]

theorem onlyChanges_setPc (s : State) (w : Word) : OnlyChanges [.pc] s (s.setPc w) := by
  intro p hp
  cases p with
  | pc => simp at hp
  | _ => simp [Part.same]

theorem onlyChanges_skipIf (s : State) (c : Bool) : OnlyChanges [.pc] s (s.skipIf c) := by
  cases c with
  | true => exact onlyChanges_setPc s _
  | false => exact onlyChanges_setPc s _

/-- What a call and a return do to the state: a new stack, then a new `pc`, and nothing else. -/
theorem onlyChanges_stack_setPc (s : State) (st : List Word) (w : Word) :
    OnlyChanges [.pc, .stack] s ({ s with stack := st }.setPc w) :=
  ((onlyChanges_stack s st).mono (by simp)).trans ((onlyChanges_setPc _ w).mono (by simp))

/-! ### How far `pc` moves (R90) -/

theorem advancesBy_of_pc_eq_add {s t : State} {k : Nat} (h : t.pc = s.pc + BitVec.ofNat 16 k) : AdvancesBy k s t := by
  intro hk
  rw [h, BitVec.toNat_add, BitVec.toNat_ofNat]
  omega

theorem advancesBy_advance (s : State) : AdvancesBy 2 s s.advance :=
  advancesBy_of_pc_eq_add s.advance_pc

theorem advancesBy_skipNext (s : State) : AdvancesBy 4 s s.skipNext :=
  advancesBy_of_pc_eq_add s.skipNext_pc

theorem advancesBy_skipIf_taken {s : State} {c : Bool} (h : c = true) : AdvancesBy 4 s (s.skipIf c) := by
  subst h
  exact advancesBy_skipNext s

theorem advancesBy_skipIf_not_taken {s : State} {c : Bool} (h : c = false) : AdvancesBy 2 s (s.skipIf c) := by
  subst h
  exact advancesBy_advance s

/-- The return address a call pushes is where `advance` would go. -/
theorem toNat_nextPc {s : State} (h : s.pc.toNat + 2 < 65536) : s.nextPc.toNat = s.pc.toNat + 2 :=
  advancesBy_advance s h

/-! ### The faults of JP and CALL (R111, R112, R226, R223) -/

theorem faultsWith_jp_odd {nnn : Addr12} (s : State) (hodd : nnn.toNat % 2 = 1) :
    FaultsWith (.jp nnn) (.misalignedTarget (nnn.setWidth 16)) s :=
  faultsWith_of_expectedFault (by rw [expectedFault, if_pos hodd, BitVec.ofNat_toNat])

theorem faultsWith_call_odd {nnn : Addr12} (s : State) (hodd : nnn.toNat % 2 = 1) :
    FaultsWith (.call nnn) (.misalignedTarget (nnn.setWidth 16)) s :=
  faultsWith_of_expectedFault (by rw [expectedFault, if_pos hodd, BitVec.ofNat_toNat])

theorem faultsWith_call_full {nnn : Addr12} {s : State} (heven : nnn.toNat % 2 = 0) (hs : s.stack.length = 16) :
    FaultsWith (.call nnn) (.stackOverflow 16) s :=
  faultsWith_of_expectedFault (by rw [expectedFault, if_neg (by omega), if_pos hs])

/-! ### The instructions -/

/-- Settles O21: the pop of `execRet_append`, and the fault that `expectedFault` gives the empty stack. -/
theorem retPopsTheTopEntry : Obligations.RetPopsTheTopEntry :=
  ⟨encodedAs_row Laws.Encoding.ret rfl,
    fun s rest a hs => ⟨_, execRet_append hs, rfl, rfl, onlyChanges_stack_setPc s rest a⟩,
    fun _ hs => faultsWith_of_expectedFault (if_pos hs)⟩

/-- Settles O22: by the parity of the target. -/
theorem jpGoesToEvenTargets : Obligations.JpGoesToEvenTargets := by
  intro nnn
  refine ⟨encodedAs_row (Laws.Encoding.jp nnn) (encodeN_eq_or _ nnn), fun heven s => ?_,
    fun hodd s => faultsWith_jp_odd s hodd⟩
  exact ⟨_, execJp_even s heven, toNat_zext16 nnn, onlyChanges_setPc s _⟩

/-- Settles O23: by the parity of the target, then the depth of the stack. -/
theorem callPushesAndGoes : Obligations.CallPushesAndGoes := by
  intro nnn
  refine ⟨encodedAs_row (Laws.Encoding.call nnn) (encodeN_eq_or _ nnn), fun heven s hroom => ?_,
    fun hodd s => faultsWith_call_odd s hodd, fun heven s hfull => faultsWith_call_full heven hfull⟩
  exact ⟨_, s.nextPc, execCall_ok heven (by omega), rfl, toNat_nextPc, toNat_zext16 nnn,
    onlyChanges_stack_setPc s _ _⟩

/-- Settles O25: by whether the skip is taken. -/
theorem seSkipsOnEqual : Obligations.SeSkipsOnEqual := by
  intro x kk
  refine ⟨encodedAs_row (Laws.Encoding.seImm x kk) (encodeXKK_eq_or _ x kk), fun s => ?_⟩
  refine ⟨_, rfl, fun heq => ?_, fun hne => ?_, onlyChanges_skipIf s _⟩
  · exact advancesBy_skipIf_taken (beq_iff_eq.mpr (BitVec.eq_of_toNat_eq heq))
  · exact advancesBy_skipIf_not_taken (beq_eq_false_iff_ne.mpr fun h => hne (congrArg BitVec.toNat h))

end Sys2Proof.Safety

/-! SUPPORT. Registers and arithmetic (spec/42_alu.md R130 to R138): the encoding lines of the two register forms, the frame of a
register write before `pc` moves on, what the flag's last write leaves of the others, and the statements about the
instructions. -/

namespace Sys2Proof

/-! ### Encoding lines (R81, R83) -/

/-- A word of the form `cxyn` with its two fixed digits taken together, as the table's patterns write them. -/
theorem encodeXYN_eq_digits_or (c : Nibble) (x y : RegIdx) (n : Nibble) :
    encodeXYN c x y n =
      (c.setWidth 16 <<< 12 ||| n.setWidth 16) ||| (x.setWidth 16 <<< 8) ||| (y.setWidth 16 <<< 4) := by
  rw [encodeXYN_eq_or]
  ac_rfl

end Sys2Proof

namespace Sys2Proof.Machine

/-! ### Reading registers after the flag's write (R22) -/

theorem State.readV_writeFlag_same (s : State) (b : Byte) : (s.writeFlag b).readV 0xF = b :=
  State.readV_writeV_same s flagReg b

theorem State.readV_writeFlag_ne (s : State) {r : RegIdx} (b : Byte) (h : r ≠ 0xF) :
    (s.writeFlag b).readV r = s.readV r :=
  State.readV_writeV_ne s b h

/-- Where one value goes to two registers, the first holds it even if the second write lands on it again. -/
theorem State.readV_writeV_twice (s : State) (x y : RegIdx) (b : Byte) :
    ((s.writeV x b).writeV y b).readV x = b := by
  rw [State.readV_writeV, State.readV_writeV_same, ite_self]

/-! ### The difference (R137) -/

/-- The difference modulo 256 is the byte that gives the minuend back. -/
theorem toNat_sub8_add (a b : Byte) : ((sub8 a b).toNat + b.toNat) % 256 = a.toNat := by
  have ha : a.toNat < 256 := a.isLt
  have hb : b.toNat < 256 := b.isLt
  rw [toNat_sub8]
  omega

end Sys2Proof.Machine

namespace Sys2Proof.Safety

open Sys2Proof.Machine

/-! ### Frames -/

theorem onlyChanges_writeV (s : State) (x : RegIdx) (b : Byte) : OnlyChanges [.v] s (s.writeV x b) := by
  intro p hp
  cases p with
  | v => simp at hp
  | _ => simp [Part.same]

theorem onlyChanges_writeFlag (s : State) (b : Byte) : OnlyChanges [.v] s (s.writeFlag b) :=
  onlyChanges_writeV s flagReg b

/-- How every instruction of this family ends: with only registers changed so far, `pc` moves on by 2. -/
theorem OnlyChanges.advance_registers {s t : State} (h : OnlyChanges [.v] s t) :
    AdvancesBy 2 s t.advance ∧ OnlyChanges [.v, .pc] s t.advance := by
  have hpc : t.pc = s.pc := h .pc (by simp)
  exact ⟨advancesBy_of_pc_eq_add (congrArg (· + 2) hpc),
    (h.mono (by simp)).trans ((onlyChanges_setPc t _).mono (by simp))⟩

/-- One register written, no flag: every other register as before, and the rest of the frame. -/
theorem writeV_advance_frame (s : State) (x : RegIdx) (b : Byte) :
    (∀ r, r ≠ x → (s.writeV x b).advance.readV r = s.readV r) ∧
      AdvancesBy 2 s (s.writeV x b).advance ∧ OnlyChanges [.v, .pc] s (s.writeV x b).advance :=
  ⟨fun _ hr => State.readV_writeV_ne s b hr, (onlyChanges_writeV s x b).advance_registers⟩

/-- One register written, then the flag: every register but those two as before, and the rest of the frame. -/
theorem writeV_writeFlag_advance_frame (s : State) (x : RegIdx) (b f : Byte) :
    (∀ r, r ≠ x → r ≠ 0xF → ((s.writeV x b).writeFlag f).advance.readV r = s.readV r) ∧
      AdvancesBy 2 s ((s.writeV x b).writeFlag f).advance ∧
      OnlyChanges [.v, .pc] s ((s.writeV x b).writeFlag f).advance :=
  ⟨fun _ hr hf => (State.readV_writeFlag_ne _ f hf).trans (State.readV_writeV_ne s b hr),
    ((onlyChanges_writeV s x b).trans (onlyChanges_writeFlag _ f)).advance_registers⟩

/-- The destination keeps its result when it is not the flag register. -/
theorem readV_writeV_writeFlag (s : State) {x : RegIdx} (b f : Byte) (h : x ≠ 0xF) :
    ((s.writeV x b).writeFlag f).readV x = b :=
  (State.readV_writeFlag_ne _ f h).trans (State.readV_writeV_same s x b)

/-! ### The instructions that set a flag -/

/-- Settles O30: the sum by `toNat_add8`, the carry by `toNat_carry`, written last. -/
theorem addRegSumsAndCarries : Obligations.AddRegSumsAndCarries := by
  intro x y
  refine ⟨encodedAs_row (Laws.Encoding.addReg x y) (encodeXYN_eq_digits_or _ x y _), fun s => ?_⟩
  refine ⟨_, rfl, fun hx => ?_, ?_, writeV_writeFlag_advance_frame s x _ _⟩
  · rw [State.advance_readV, readV_writeV_writeFlag s _ _ hx, toNat_add8]
  · rw [State.advance_readV, State.readV_writeFlag_same, toNat_carry]

/-- Settles O31: the difference by `toNat_sub8_add`, the borrow by `toNat_borrow`, written last. -/
theorem subSubtractsAndBorrows : Obligations.SubSubtractsAndBorrows := by
  intro x y
  refine ⟨encodedAs_row (Laws.Encoding.sub x y) (encodeXYN_eq_digits_or _ x y _), fun s => ?_⟩
  refine ⟨_, rfl, fun hx => ?_, ?_, writeV_writeFlag_advance_frame s x _ _⟩
  · rw [State.advance_readV, readV_writeV_writeFlag s _ _ hx, toNat_sub8_add]
  · rw [State.advance_readV, State.readV_writeFlag_same, toNat_borrow]

/-- Settles O32: both destinations hold the one shifted value, also where they are the same register, unless the flag
written last lands on them. -/
theorem shrShiftsIntoBoth : Obligations.ShrShiftsIntoBoth := by
  intro x y
  refine ⟨encodedAs_row (Laws.Encoding.shr x y) (encodeXYN_eq_digits_or _ x y _), fun s => ?_⟩
  refine ⟨_, rfl, fun hx => ?_, fun hy => ?_, ?_, fun r hx hy hf => ?_, OnlyChanges.advance_registers ?_⟩
  · rw [State.advance_readV, State.readV_writeFlag_ne _ _ hx, State.readV_writeV_twice, toNat_shr1]
  · rw [State.advance_readV, readV_writeV_writeFlag _ _ _ hy, toNat_shr1]
  · rw [State.advance_readV, State.readV_writeFlag_same, toNat_shiftedOut]
  · rw [State.advance_readV, State.readV_writeFlag_ne _ _ hf, State.readV_writeV_ne _ _ hy, State.readV_writeV_ne _ _ hx]
  · exact ((onlyChanges_writeV s x _).trans (onlyChanges_writeV _ y _)).trans (onlyChanges_writeFlag _ _)

/-! ### The instructions that set no flag -/

/-- Settles O26: one register written. -/
theorem ldImmLoadsTheImmediate : Obligations.LdImmLoadsTheImmediate := by
  intro x kk
  refine ⟨encodedAs_row (Laws.Encoding.ldImm x kk) (encodeXKK_eq_or _ x kk), fun s => ?_⟩
  exact ⟨_, rfl, State.readV_writeV_same s x kk, writeV_advance_frame s x kk⟩

/-- Settles O27: one register written, with the sum of `toNat_add8`. -/
theorem addImmWrapsWithoutFlag : Obligations.AddImmWrapsWithoutFlag := by
  intro x kk
  refine ⟨encodedAs_row (Laws.Encoding.addImm x kk) (encodeXKK_eq_or _ x kk), fun s => ?_⟩
  refine ⟨_, rfl, ?_, writeV_advance_frame s x _⟩
  rw [State.advance_readV, State.readV_writeV_same, toNat_add8]

/-- Settles O28: one register written, with the other's value. -/
theorem ldRegCopies : Obligations.LdRegCopies := by
  intro x y
  refine ⟨encodedAs_row (Laws.Encoding.ldReg x y) (encodeXYN_eq_digits_or _ x y _), fun s => ?_⟩
  exact ⟨_, rfl, State.readV_writeV_same s x _, writeV_advance_frame s x _⟩

/-- Settles O29: one register written, its bits those of the bitwise operation. -/
theorem andXorAreBitwise : Obligations.AndXorAreBitwise := by
  intro x y
  refine ⟨encodedAs_row (Laws.Encoding.andReg x y) (encodeXYN_eq_digits_or _ x y _),
    encodedAs_row (Laws.Encoding.xorReg x y) (encodeXYN_eq_digits_or _ x y _), fun s => ?_, fun s => ?_⟩
  · refine ⟨_, rfl, fun k => ?_, writeV_advance_frame s x _⟩
    rw [State.advance_readV, State.readV_writeV_same, BitVec.getLsbD_and]
  · refine ⟨_, rfl, fun k => ?_, writeV_advance_frame s x _⟩
    rw [State.advance_readV, State.readV_writeV_same, BitVec.getLsbD_xor]

end Sys2Proof.Safety

/-! SUPPORT. Index register and memory loads (spec/43_index_memory.md R160 to R162): the encoding lines of the forms `Fxkk`, the
frame of an index write before `pc` moves on, what a load from `I` leaves in each register, and the statements about the
instructions. -/

namespace Sys2Proof

/-! ### Encoding lines (R81, R83) -/

/-- A word of the form `cxkk` with its fixed digits taken together, as the table's patterns write them. -/
theorem encodeXKK_eq_digits_or (c : Nibble) (x : RegIdx) (kk : Byte) :
    encodeXKK c x kk = (c.setWidth 16 <<< 12 ||| kk.setWidth 16) ||| (x.setWidth 16 <<< 8) := by
  rw [encodeXKK_eq_or]
  ac_rfl

end Sys2Proof

namespace Sys2Proof.Machine

/-! ### The bytes at `I` and the registers they go to (R53, R162) -/

/-- The byte at offset `r` is the one memory holds at `I + r`. -/
theorem State.getElem?_bytesFromI (s : State) {count r : Nat} (h : r < count) :
    (s.bytesFromI count)[r]? = some (s.mem.read (s.i.toNat + r)) := by
  simp [State.bytesFromI, h]

/-- After a load from register 0, a register holds the byte at its own place in the list, where there is one. -/
theorem State.readV_loadV_zero (s : State) {bs : List Byte} (h : bs.length ≤ Config.numV) (r : RegIdx) :
    (s.loadV 0 bs).readV r = (bs[r.toNat]?).getD (s.readV r) := by
  rw [State.readV_loadV s 0 bs (by omega), if_neg (Nat.not_lt_zero _), Nat.sub_zero]

/-- A register below `count` holds the byte at its own offset from `I`. -/
theorem State.readV_loadV_bytesFromI (s : State) {count : Nat} (hc : count ≤ Config.numV) {r : RegIdx}
    (hr : r.toNat < count) :
    (s.loadV 0 (s.bytesFromI count)).readV r = s.mem.read (s.i.toNat + r.toNat) := by
  rw [s.readV_loadV_zero (by simpa using hc), s.getElem?_bytesFromI hr, Option.getD_some]

/-- A register from `count` upward keeps its value. -/
theorem State.readV_loadV_bytesFromI_of_le (s : State) {count : Nat} {r : RegIdx} (hr : count ≤ r.toNat) :
    (s.loadV 0 (s.bytesFromI count)).readV r = s.readV r := by
  have hc : count ≤ Config.numV := hr.trans r.isLt.le
  rw [s.readV_loadV_zero (by simpa using hc), List.getElem?_eq_none (by simpa using hr), Option.getD_none]

end Sys2Proof.Machine

namespace Sys2Proof.Safety

open Sys2Proof.Machine

/-! ### Frames -/

theorem onlyChanges_setI (s : State) (w : Word) : OnlyChanges [.i] s (s.setI w) := by
  intro p hp
  cases p with
  | i => simp at hp
  | _ => simp [Part.same]

/-- How Annn and Fx1E end: the index written, then `pc` moved on by 2. -/
theorem setI_advance_frame (s : State) (w : Word) :
    AdvancesBy 2 s (s.setI w).advance ∧ OnlyChanges [.i, .pc] s (s.setI w).advance :=
  ⟨advancesBy_advance (s.setI w),
    ((onlyChanges_setI s w).mono (by simp)).trans ((onlyChanges_setPc _ _).mono (by simp))⟩

/-- A load is a sequence of register writes. -/
theorem onlyChanges_loadV (s : State) (k : Nat) (bs : List Byte) : OnlyChanges [.v] s (s.loadV k bs) := by
  induction bs generalizing s k with
  | nil => exact OnlyChanges.refl _ s
  | cons b bs ih => exact (onlyChanges_writeV s _ b).trans (ih _ (k + 1))

/-! ### The instructions -/

/-- Settles O35: by whether the last address is in memory; if so, register by register through the bytes at `I`. -/
theorem ldVMemLoadsTheRegisters : Obligations.LdVMemLoadsTheRegisters := by
  intro x
  refine ⟨encodedAs_row (Laws.Encoding.ldVMem x) (encodeXKK_eq_digits_or _ x _), fun s hfits => ?_,
    fun s hpast => faultsWith_of_expectedFault (if_pos hpast)⟩
  refine ⟨_, execLdVMem_ok hfits, fun r hr => ?_, fun r hr => ?_, (onlyChanges_loadV s 0 _).advance_registers⟩
  · rw [State.advance_readV, s.readV_loadV_bytesFromI x.isLt (Nat.lt_succ_of_le hr)]
  · rw [State.advance_readV, s.readV_loadV_bytesFromI_of_le hr]

/-- Settles O33: the index written with the address, which `zext16` keeps as a number. -/
theorem ldISetsTheIndex : Obligations.LdISetsTheIndex := by
  intro nnn
  refine ⟨encodedAs_row (Laws.Encoding.ldI nnn) (encodeN_eq_or _ nnn), fun s => ?_⟩
  exact ⟨_, rfl, toNat_zext16 nnn, setI_advance_frame s _⟩

/-- Settles O34: the index written with the sum of `toNat_addIndex`. -/
theorem addIWrapsAtSixteenBits : Obligations.AddIWrapsAtSixteenBits := by
  intro x
  refine ⟨encodedAs_row (Laws.Encoding.addI x) (encodeXKK_eq_digits_or _ x _), fun s => ?_⟩
  exact ⟨_, rfl, toNat_addIndex s.i (s.readV x), setI_advance_frame s _⟩

end Sys2Proof.Safety

/-! SUPPORT. Display (spec/44_display.md R180, R181): the sprite's bits as statements name them and as the draw uses them, what a
collision erases, the frame of a display write before `pc` moves on, and the statements about CLS and DRW. -/

namespace Sys2Proof.Machine

open Sys2Proof.Safety

/-! ### The sprite at `I` (R59, R181) -/

/-- The sprite the draw makes of the bytes at `I` has the bits statements name. -/
theorem blockBit_bytesFromI (s : State) (px py n X Y : Nat) :
    blockBit px py (s.bytesFromI n) X Y = spriteBit s px py n X Y := by
  rw [blockBit, spriteBit, State.length_bytesFromI]
  by_cases hin : px ≤ X ∧ X < px + 8 ∧ py ≤ Y ∧ Y < py + n
  · have hrow : (s.bytesFromI n).getD (Y - py) 0 = s.mem.read (s.i.toNat + (Y - py)) := by
      rw [List.getD_eq_getElem?_getD, s.getElem?_bytesFromI (by omega), Option.getD_some]
    rw [hrow]
  · rw [decide_eq_false hin, Bool.false_and, Bool.false_and]

/-- Where every pixel is XORed with a sprite, the set pixels under a 1 bit are those that go from 1 to 0. -/
theorem exists_erased_iff {f g : Framebuffer} {bit : Nat → Nat → Bool}
    (hxor : ∀ X Y, g.pixel X Y = (f.pixel X Y ^^ bit X Y)) :
    (∃ X Y, f.pixel X Y = true ∧ g.pixel X Y = false) ↔ ∃ X Y, bit X Y = true ∧ f.pixel X Y = true := by
  refine exists₂_congr fun X Y => ?_
  rw [hxor]
  cases f.pixel X Y <;> simp

/-- A draw in memory and on the grid, or of no row, in the statements' terms: every pixel XORed with the sprite's bit, and VF
set exactly when some pixel went from 1 to 0. -/
theorem execDrw_xors {x y : RegIdx} {n : Nibble} {s : State}
    (h : n.toNat = 0 ∨ s.i.toNat + n.toNat ≤ 4096 ∧
      ¬ ((s.readV x).toNat + 7 > 63 ∨ (s.readV y).toNat + n.toNat - 1 > 31)) :
    ∃ c f, execDrw x y n s = .next ({ s with fb := f }.writeFlag (bool01 c)).advance ∧
      (∀ X Y, Framebuffer.pixel f X Y =
        (s.fb.pixel X Y ^^ spriteBit s (s.readV x).toNat (s.readV y).toNat n.toNat X Y)) ∧
      (c = true ↔ ∃ X Y, s.fb.pixel X Y = true ∧ Framebuffer.pixel f X Y = false) := by
  obtain ⟨c, f, hexec, hpix, hcol⟩ := execDrw_ok h
  refine ⟨c, f, hexec, fun X Y => ?_, hcol.trans (exists_erased_iff hpix).symm⟩
  rw [hpix, blockBit_bytesFromI]

end Sys2Proof.Machine

namespace Sys2Proof.Safety

open Sys2Proof.Machine

/-! ### Frames -/

/-- Replacing the framebuffer changes the display only. -/
theorem onlyChanges_fb (s : State) (f : Framebuffer) : OnlyChanges [.fb] s { s with fb := f } := by
  intro p hp
  cases p with
  | fb => simp at hp
  | _ => simp [Part.same, State.readV]

/-- How a draw ends: the display replaced, the flag written, `pc` moved on by 2. -/
theorem fb_writeFlag_advance_frame (s : State) (f : Framebuffer) (b : Byte) :
    (∀ r, r ≠ 0xF → ({ s with fb := f }.writeFlag b).advance.readV r = s.readV r) ∧
      AdvancesBy 2 s ({ s with fb := f }.writeFlag b).advance ∧
      OnlyChanges [.fb, .v, .pc] s ({ s with fb := f }.writeFlag b).advance := by
  obtain ⟨hpc, hframe⟩ := (onlyChanges_writeFlag { s with fb := f } b).advance_registers
  exact ⟨fun _ hr => State.readV_writeFlag_ne _ b hr, hpc,
    ((onlyChanges_fb s f).mono (by simp)).trans (hframe.mono (by simp))⟩

/-! ### The faults of DRW (R181, R221, R227) -/

theorem faultsWith_drw_past_memory {x y : RegIdx} {n : Nibble} {s : State} (h0 : 1 ≤ n.toNat)
    (hpast : s.i.toNat + n.toNat - 1 ≥ 4096) :
    FaultsWith (.drw x y n) (.outOfBounds (max s.i.toNat 4096)) s :=
  faultsWith_of_expectedFault (if_pos ⟨h0, hpast⟩)

theorem faultsWith_drw_off_grid {x y : RegIdx} {n : Nibble} {s : State} (h0 : 1 ≤ n.toNat)
    (hmem : s.i.toNat + n.toNat - 1 < 4096)
    (hoff : (s.readV x).toNat + 7 > 63 ∨ (s.readV y).toNat + n.toNat - 1 > 31) :
    FaultsWith (.drw x y n) (.displayOutOfRange (s.readV x) (s.readV y) n.toNat) s :=
  faultsWith_of_expectedFault (by rw [expectedFault, if_neg (by omega), if_pos ⟨h0, hoff⟩])

/-! ### The instructions -/

/-- Settles O37: the draw by `execDrw_xors`, VF by whether it collided, and R228's order of the two faults. -/
theorem drwXorsTheSprite : Obligations.DrwXorsTheSprite := by
  intro x y n
  refine ⟨encodedAs_row (Laws.Encoding.drw x y n) (encodeXYN_eq_or _ x y n), fun s hdraws => ?_,
    fun _ => faultsWith_drw_past_memory, fun _ => faultsWith_drw_off_grid⟩
  obtain ⟨c, f, hexec, hpix, hcol⟩ := execDrw_xors (x := x) (y := y) (n := n) (s := s) (by omega)
  refine ⟨_, hexec, hpix, fun herased => ?_, fun hkept => ?_, fb_writeFlag_advance_frame s f _⟩
  · rw [State.advance_readV, State.readV_writeFlag_same, hcol.mpr herased]
    rfl
  · rw [State.advance_readV, State.readV_writeFlag_same, Bool.eq_false_iff.mpr (mt hcol.mp hkept)]
    rfl

/-- Settles O36: the display replaced by the clear one of `Framebuffer.pixel_clear`. -/
theorem clsClearsEveryPixel : Obligations.ClsClearsEveryPixel := by
  refine ⟨encodedAs_row Laws.Encoding.cls rfl, fun s => ?_⟩
  exact ⟨_, rfl, Framebuffer.pixel_clear, advancesBy_advance s.clearDisplay,
    ((onlyChanges_fb s _).mono (by simp)).trans ((onlyChanges_setPc _ _).mono (by simp))⟩

end Sys2Proof.Safety

/-! SUPPORT. Keys and timer (spec/45_keys_timer.md R200 to R203): how far a key skip moves `pc`, the frame of a timer write
before `pc` moves on, and the statements about SKP, SKNP, LD Vx, DT and LD DT, Vx. -/

namespace Sys2Proof.Safety

open Sys2Proof.Machine

/-! ### How far a skip moves `pc` (R200, R201) -/

theorem advancesBy_skipIf (s : State) (c : Bool) : AdvancesBy (if c then 4 else 2) s (s.skipIf c) := by
  cases c with
  | true => exact advancesBy_skipNext s
  | false => exact advancesBy_advance s

/-- SKNP takes the skip on the opposite of the key's state. -/
theorem advancesBy_skipIf_not (s : State) (c : Bool) : AdvancesBy (if c then 2 else 4) s (s.skipIf (!c)) := by
  cases c with
  | true => exact advancesBy_advance s
  | false => exact advancesBy_skipNext s

/-! ### Frames -/

/-- How Fx15 ends: the timer written, then `pc` moved on by 2. -/
theorem timerSet_advance_frame (s : State) (b : Byte) :
    AdvancesBy 2 s (s.timerSet b).advance ∧ OnlyChanges [.timer, .pc] s (s.timerSet b).advance :=
  ⟨advancesBy_advance (s.timerSet b),
    ((onlyChanges_timer s b).mono (by simp)).trans ((onlyChanges_setPc _ _).mono (by simp))⟩

/-! ### The instructions -/

/-- Settles O39: below 16 the skip of `execSkp_ok` and `execSknp_ok`, by the key's state; past 15 the fault that
`expectedFault` gives both. -/
theorem keySkipsSampleTheKey : Obligations.KeySkipsSampleTheKey := by
  intro x
  refine ⟨encodedAs_row (Laws.Encoding.skp x) (encodeXKK_eq_digits_or _ x _),
    encodedAs_row (Laws.Encoding.sknp x) (encodeXKK_eq_digits_or _ x _), fun s hkey => ⟨?_, ?_⟩,
    fun s hpast => ⟨faultsWith_of_expectedFault (if_pos hpast), faultsWith_of_expectedFault (if_pos hpast)⟩⟩
  · exact ⟨_, execSkp_ok hkey, advancesBy_skipIf s _, onlyChanges_skipIf s _⟩
  · exact ⟨_, execSknp_ok hkey, advancesBy_skipIf_not s _, onlyChanges_skipIf s _⟩

/-- Settles O40: one register written with the timer, or the timer with one register. -/
theorem timerIsReadAndSet : Obligations.TimerIsReadAndSet := by
  intro x
  refine ⟨encodedAs_row (Laws.Encoding.ldVDt x) (encodeXKK_eq_digits_or _ x _),
    encodedAs_row (Laws.Encoding.ldDtV x) (encodeXKK_eq_digits_or _ x _), fun s => ?_, fun s => ?_⟩
  · exact ⟨_, rfl, State.readV_writeV_same s x _, writeV_advance_frame s x _⟩
  · exact ⟨_, rfl, s.timerSet_timer _, timerSet_advance_frame s _⟩

end Sys2Proof.Safety

/-! SUPPORT. Exceptions (spec/60_exceptions.md R225, R228, R230): a word no row matches is rejected, how a run of transactions is
taken apart, what each transaction leaves unchanged while a fault is latched, and the statements about what a step latches and
how long the latch holds it. -/

namespace Sys2Proof

/-- A word that no row's mask and match accept is rejected by name (R84, R85). -/
theorem decodeWord_of_no_row {op : Word} (h : ∀ r ∈ opcodeTable, op &&& r.mask ≠ r.pattern) :
    decodeWord op = .error (.unknownOpcode op) := by
  refine (decodeWord_eq_error_iff op _).mpr ⟨rfl, fun r hr => ?_⟩
  rw [← Bool.not_eq_true, OpcodeRow.accepts_iff]
  exact h r hr

end Sys2Proof

namespace Sys2Proof.Safety

open Sys2Proof.Machine

/-! ### Frames (R52, R64, R242) -/

/-- Replacing the memory changes the memory only. -/
theorem onlyChanges_mem (s : State) (m : Memory) : OnlyChanges [.mem] s { s with mem := m } := by
  intro p hp
  cases p with
  | mem => simp at hp
  | _ => simp [Part.same, State.readV]

theorem onlyChanges_memWrite {s t : State} {a : Nat} {b : Byte} (h : s.memWrite a b = .ok t) :
    OnlyChanges [.mem] s t := by
  rw [State.memWrite_eq] at h
  split_ifs at h
  cases h
  exact onlyChanges_mem s _

theorem onlyChanges_setPressed {s t : State} {k : Byte} {b : Bool} (h : s.setPressed k b = .ok t) :
    OnlyChanges [.keys] s t := by
  rw [State.setPressed_eq] at h
  split_ifs at h
  cases h
  exact onlyChanges_keys s _

/-- A host-side write stays within the frame of the write, since one that fails changes nothing. -/
theorem onlyChanges_hostWrite {parts : List Part} {u u' : Session} {resp : Response} {w : Except FaultKind State}
    (hw : ∀ t, w = .ok t → OnlyChanges parts u.state t) (h : hostWrite u w = (u', resp)) :
    OnlyChanges parts u.state u'.state := by
  cases w with
  | ok t =>
    cases h
    exact hw t rfl
  | error k =>
    cases h
    exact .refl parts u.state

/-- A frame without the latch keeps the record it holds. -/
theorem OnlyChanges.keeps_latch {parts : List Part} {s t : State} {r : FaultRecord} (h : OnlyChanges parts s t)
    (hparts : Part.fault ∉ parts) (hr : s.fault = some r) : t.fault = some r :=
  (h .fault hparts).trans hr

end Sys2Proof.Safety

namespace Sys2Proof.Machine

open Sys2Proof.Safety

/-! ### What a step latches (R225, R228) -/

/-- Settles O9: the two ways of a step of an unfaulted machine, by whether a record is expected. -/
theorem stepFaultsInPriorityOrder : Obligations.StepFaultsInPriorityOrder := by
  intro s hf
  cases h : expectedRecord s with
  | none => exact step_of_expectedRecord_none hf h
  | some r => exact ⟨_, step_of_expectedRecord_some hf h, rfl⟩

/-- Settles O10: the decoder rejects such a word, and the step then takes `UnknownOpcode`. -/
theorem unmatchedWordRaisesUnknownOpcode : Obligations.UnmatchedWordRaisesUnknownOpcode :=
  fun _ hf hpc hrows => ⟨step_unknown hf hpc (decodeWord_of_no_row hrows), rfl⟩

/-! ### Runs of transactions (R241) -/

/-- A run that ends goes through the session its first transaction leaves. -/
theorem runTransactions_cons_eq_next {t : Transaction} {ts : List Transaction} {u u' : Session}
    (h : runTransactions (t :: ts) u = .next u') :
    ∃ v r, transact t u = .next (v, r) ∧ runTransactions ts v = .next u' := by
  cases ht : transact t u with
  | next p => exact ⟨p.1, p.2, rfl, by rwa [runTransactions_cons ts ht] at h⟩
  | fault r => simp [runTransactions, ht] at h
  | refused r => simp [runTransactions, ht] at h

/-- What each transaction of a run keeps, the run keeps. -/
theorem runTransactions_keeps {P : Session → Prop} {ts : List Transaction} {u u' : Session}
    (hkeep : ∀ t ∈ ts, ∀ v v' r, P v → transact t v = .next (v', r) → P v') (hu : P u)
    (h : runTransactions ts u = .next u') : P u' := by
  induction ts generalizing u with
  | nil =>
    cases h
    exact hu
  | cons t ts ih =>
    obtain ⟨v, r, ht, hts⟩ := runTransactions_cons_eq_next h
    exact ih (fun t' ht' => hkeep t' (List.mem_cons_of_mem t ht')) (hkeep t List.mem_cons_self u v r hu ht) hts

/-! ### The latch (R230) -/

/-- While a fault is latched, a transaction other than `Reset` reaches only the timer, the keys and memory. -/
theorem transact_latched_frame {t : Transaction} {u u' : Session} {r : FaultRecord} {resp : Response} (ht : t ≠ .reset)
    (hr : u.state.fault = some r) (h : transact t u = .next (u', resp)) :
    OnlyChanges [.timer, .keys, .mem] u.state u'.state := by
  cases t with
  | reset => exact absurd rfl ht
  | loadByte a b =>
    rw [transact] at h
    split at h
    · exact onlyChanges_hostWrite (fun _ hw => (onlyChanges_memWrite hw).mono (by simp)) (Host.Outcome.next.inj h)
    · cases h
  | step =>
    rw [transact_step (step_faulted hr)] at h
    cases h
    exact .refl _ u.state
  | tick =>
    cases h
    exact u.state.onlyChanges_tick.mono (by simp)
  | setPressed k b =>
    exact onlyChanges_hostWrite (fun _ hw => (onlyChanges_setPressed hw).mono (by simp)) (Host.Outcome.next.inj h)
  | readPixel | readFramebuffer | readStatus =>
    cases h
    exact .refl _ u.state

/-- Runs without `Reset` from a latched fault stay within one frame, which keeps the latch at each transaction. -/
theorem runTransactions_latched_frame {ts : List Transaction} {u u' : Session} {r : FaultRecord} (hts : .reset ∉ ts)
    (hr : u.state.fault = some r) (h : runTransactions ts u = .next u') :
    OnlyChanges [.timer, .keys, .mem] u.state u'.state :=
  runTransactions_keeps (P := fun v => OnlyChanges [.timer, .keys, .mem] u.state v.state)
    (fun _ ht _ _ _ hv hstep =>
      hv.trans (transact_latched_frame (ne_of_mem_of_not_mem ht hts) (hv.keeps_latch (by simp) hr) hstep))
    (.refl _ u.state) h

/-- Settles O15: the frame of the run keeps the latch, so the `Step` after it returns the record; `Reset` answers the reset
state. -/
theorem latchedFaultStaysUntilReset : Obligations.LatchedFaultStaysUntilReset := by
  refine ⟨fun ts u u' r hts hr hrun => ?_, fun _ => ⟨_, rfl, rfl⟩⟩
  have hframe := runTransactions_latched_frame hts hr hrun
  have hlatch : u'.state.fault = some r := hframe.keeps_latch (by simp) hr
  exact ⟨hlatch, hframe, (faultedMachineIgnoresStep u' r hlatch).2⟩

end Sys2Proof.Machine

/-! SUPPORT. Reset and the ends of a run (spec/70_reset_and_hazards.md R260, R266): runs from a state that a step leaves as it
is, the jump to its own address, and the statements about them. -/

namespace Sys2Proof.Machine

open Sys2Proof.Safety

/-! ### Reset (R260) -/

@[simp] theorem State.pixel_reset (x y : Nat) : State.reset.fb.pixel x y = false :=
  Framebuffer.pixel_clear x y

theorem State.keys_reset (k : Fin 16) : State.reset.keys[k] = false :=
  Vector.getElem_replicate k.isLt

/-- Settles O45: `Reset` answers the reset state whatever the session, and its elements are read one by one. -/
theorem resetSetsEveryElement : Obligations.ResetSetsEveryElement :=
  fun _ => ⟨⟨.loading, State.reset⟩, rfl, rfl, State.readV_reset, rfl, rfl, rfl, rfl, State.keys_reset,
    State.pixel_reset, Memory.read_nil, rfl⟩

/-! ### Runs from a fixed point of the step -/

/-- A run goes on from the state its first step leaves. -/
theorem run_succ {M : Host.Core} {s t : M.State} (k : Nat) (h : M.step s = .next t) : M.run (k + 1) s = M.run k t := by
  rw [Host.Core.run, h]

/-- A state that one step leaves as it is, any number of steps leaves as it is. -/
theorem run_of_step_eq_self {M : Host.Core} {s : M.State} (h : M.step s = .next s) (k : Nat) : M.run k s = .next s := by
  induction k with
  | zero => rfl
  | succ k ih => rw [run_succ k h, ih]

/-! ### The jump to its own address (R111, R266) -/

/-- An address of memory is a jump target: twelve bits hold it. -/
theorem zext16_setWidth {w : Word} (h : w.toNat < 4096) : zext16 (w.setWidth 12) = w := by
  apply BitVec.eq_of_toNat_eq
  rw [toNat_zext16, BitVec.toNat_setWidth]
  exact Nat.mod_eq_of_lt h

/-- The word that parks the machine at `w` decodes to the jump to `w`. -/
theorem decodeWord_jp_to {w : Word} (h : w.toNat < 4096) :
    decodeWord (0x1000#16 ||| w) = .ok (.jp (w.setWidth 12)) := by
  obtain ⟨⟨-, -, hdec⟩, -⟩ := jpGoesToEvenTargets (w.setWidth 12)
  rwa [← zext16, zext16_setWidth h] at hdec

/-- A parked machine's step jumps to where it stands. The jump is taken because `pc` is even. -/
theorem step_parked {s : State} (hp : Parked s) (heven : s.pc.toNat % 2 = 0) : step s = .next s := by
  obtain ⟨hf, hpc, hword⟩ := hp
  have hlt : s.pc.toNat < 4096 := Nat.lt_of_succ_lt hpc
  have htarget : zext16 (s.pc.setWidth 12) = s.pc := zext16_setWidth hlt
  have hdec : decodeWord (wordAtPc s) = .ok (.jp (s.pc.setWidth 12)) := by rw [hword, decodeWord_jp_to hlt]
  calc step s = execJp (s.pc.setWidth 12) s := step_exec hf hpc hdec
    _ = .next (s.setPc (zext16 (s.pc.setWidth 12))) := execJp_even s (by rwa [← toNat_zext16, htarget])
    _ = .next s := by rw [htarget]; rfl

/-- Settles O47: the step leaves a faulted and a parked machine as it is, so every run does. -/
theorem endedRunsStayAsTheyAre : Obligations.EndedRunsStayAsTheyAre := by
  rintro s k (hfaulted | ⟨hparked, -, -, -, heven, -⟩)
  · obtain ⟨r, hr⟩ := Option.ne_none_iff_exists'.mp hfaulted
    exact run_of_step_eq_self (M := core) (step_faulted hr) k
  · exact run_of_step_eq_self (M := core) (step_parked hparked heven) k

end Sys2Proof.Machine

/-! SUPPORT. Round trips and rejections (spec/30_encoding.md R83 to R85): every instruction's word is its row's, so the decoder
gives it back from the word and from its two bytes; and which words no row accepts, family by family. -/

namespace Sys2Proof

open Sys2Proof.Safety

/-! ### Decoding what was encoded (R83, R84) -/

/-- Every instruction has the encoding line of its row. -/
theorem encoding_statement (i : Instr) : Laws.Encoding.Statement i := by
  cases i with
  | cls => exact Laws.Encoding.cls
  | ret => exact Laws.Encoding.ret
  | jp nnn => exact Laws.Encoding.jp nnn
  | call nnn => exact Laws.Encoding.call nnn
  | seImm x kk => exact Laws.Encoding.seImm x kk
  | ldImm x kk => exact Laws.Encoding.ldImm x kk
  | addImm x kk => exact Laws.Encoding.addImm x kk
  | ldReg x y => exact Laws.Encoding.ldReg x y
  | andReg x y => exact Laws.Encoding.andReg x y
  | xorReg x y => exact Laws.Encoding.xorReg x y
  | addReg x y => exact Laws.Encoding.addReg x y
  | sub x y => exact Laws.Encoding.sub x y
  | shr x y => exact Laws.Encoding.shr x y
  | ldI nnn => exact Laws.Encoding.ldI nnn
  | drw x y n => exact Laws.Encoding.drw x y n
  | skp x => exact Laws.Encoding.skp x
  | sknp x => exact Laws.Encoding.sknp x
  | ldVDt x => exact Laws.Encoding.ldVDt x
  | ldDtV x => exact Laws.Encoding.ldDtV x
  | addI x => exact Laws.Encoding.addI x
  | ldVMem x => exact Laws.Encoding.ldVMem x

theorem decodeWord_encode (i : Instr) : decodeWord (encode i) = .ok i := by
  obtain ⟨-, -, hdec⟩ := encodedAs_row (encoding_statement i) rfl
  exact hdec

/-- The two bytes go back together into the word, and the bytes after them are left over (R56, R80). -/
theorem decodeBytes_encodeBytes (i : Instr) (rest : List Byte) :
    decodeBytes (encodeBytes i ++ rest) = .ok (i, rest) := by
  simp only [encodeBytes, List.cons_append, List.nil_append, decodeBytes, wordOfBytes_high_low, decodeWord_encode]

/-- Settles O1: every row's encoding line, and the bytes as the word's two halves. -/
theorem decodeOfEncodeIsIdentity : Obligations.DecodeOfEncodeIsIdentity :=
  fun i _ => ⟨decodeWord_encode i, decodeBytes_encodeBytes i⟩

/-- Settles O2: the mask and the fields of the row fix the word. -/
theorem decodedWordIsTheEncoding : Obligations.DecodedWordIsTheEncoding :=
  fun _ _ => encode_of_decodeWord

/-! ### Rejected words (R85) -/

theorem decodeWord_unknown_iff (op : Word) :
    decodeWord op = .error (.unknownOpcode op) ↔ ∀ r ∈ opcodeTable, op &&& r.mask ≠ r.pattern := by
  simp only [decodeWord_eq_error_iff, true_and, ← Bool.not_eq_true, OpcodeRow.accepts_iff, ne_eq]

/-- Settles O4: the rows' tests as conditions on digits of the word, then by the first digit. -/
theorem illegalWordsAreRejected : Obligations.IllegalWordsAreRejected := by
  intro op
  have hfirst : op.toNat / 4096 < 16 := by
    have := op.isLt
    omega
  rw [decodeWord_unknown_iff]
  simp only [opcodeTable, List.forall_mem_cons, List.not_mem_nil, false_implies, implies_true, and_true, ne_eq,
    BitVec.ofNat_eq_ofNat, and_FFFF_eq_iff, and_F000_eq_iff, and_F00F_eq_iff, and_F0FF_eq_iff, BitVec.toNat_ofNat,
    Nat.reducePow, Nat.reduceMod, BitVec.toNat_eq (x := op)]
  interval_cases h : op.toNat / 4096 <;> simp <;> omega

/-- Settles O5: the decoder run on each word. -/
theorem sampleWordsDecode : Obligations.SampleWordsDecode := by
  unfold Obligations.SampleWordsDecode
  decide

end Sys2Proof

/-! SUPPORT. What an instruction can do, said once (spec/60_exceptions.md R228): it takes the fault expected of it, or it has
its effect. The effect's frame, the registers it writes and the devices it sees then give the statements about all
instructions (spec/10_state.md sections 2 to 6). -/

namespace Sys2Proof.Machine

open Sys2Proof.Safety

/-! ### The effect of an instruction -/

/-- The state an instruction leaves when it does not fault. -/
def effect (i : Instr) (s : State) : State :=
  match i with
  | .cls => s.clearDisplay.advance
  | .ret => { s with stack := s.stack.dropLast }.setPc (s.stack.getLast?.getD 0)
  | .jp nnn => s.setPc (zext16 nnn)
  | .call nnn => { s with stack := s.stack ++ [s.nextPc] }.setPc (zext16 nnn)
  | .seImm x kk => s.skipIf (s.readV x == kk)
  | .ldImm x kk => (s.writeV x kk).advance
  | .addImm x kk => (s.writeV x (add8 (s.readV x) kk)).advance
  | .ldReg x y => (s.writeV x (s.readV y)).advance
  | .andReg x y => (s.writeV x (s.readV x &&& s.readV y)).advance
  | .xorReg x y => (s.writeV x (s.readV x ^^^ s.readV y)).advance
  | .addReg x y =>
    ((s.writeV x (add8 (s.readV x) (s.readV y))).writeFlag (bool01 (carries (s.readV x) (s.readV y)))).advance
  | .sub x y =>
    ((s.writeV x (sub8 (s.readV x) (s.readV y))).writeFlag (bool01 (borrows (s.readV x) (s.readV y)))).advance
  | .shr x y =>
    (((s.writeV x (shr1 (s.readV y))).writeV y (shr1 (s.readV y))).writeFlag (bool01 (shiftedOut (s.readV y)))).advance
  | .ldI nnn => (s.setI (zext16 nnn)).advance
  | .drw x y n =>
    let drawn := drawRows (s.readV x).toNat (s.readV y).toNat (s.bytesFromI n.toNat) (s.fb, false)
    ({ s with fb := drawn.1 }.writeFlag (bool01 drawn.2)).advance
  | .skp x => s.skipIf (s.keys[(s.readV x).toNat]?.getD false)
  | .sknp x => s.skipIf (!s.keys[(s.readV x).toNat]?.getD false)
  | .ldVDt x => (s.writeV x s.timer).advance
  | .ldDtV x => (s.timerSet (s.readV x)).advance
  | .addI x => (s.setI (addIndex s.i (s.readV x))).advance
  | .ldVMem x => (s.loadV 0 (s.bytesFromI (x.toNat + 1))).advance

/-- A draw on the grid, or of no row, is its rows drawn one after the other. -/
theorem State.draw_eq_drawRows (s : State) {px py : Byte} {bytes : List Byte}
    (h : bytes.length = 0 ∨ ¬ (px.toNat + 7 > 63 ∨ py.toNat + bytes.length - 1 > 31)) :
    s.draw px py bytes = .ok ((drawRows px.toNat py.toNat bytes (s.fb, false)).2,
      { s with fb := (drawRows px.toNat py.toNat bytes (s.fb, false)).1 }) := by
  by_cases h0 : bytes.length = 0
  · obtain rfl := List.length_eq_zero_iff.mp h0
    rfl
  · have hgrid : blockOffGrid px py bytes.length = false := by
      rw [← Bool.not_eq_true, blockOffGrid_iff]
      exact h.resolve_left h0
    simp only [State.draw, if_neg h0, hgrid, Bool.false_eq_true, if_false]

/-- An instruction with no fault has its effect. -/
theorem exec_eq_effect {i : Instr} {s : State} (h : expectedFault i s = none) : exec i s = .next (effect i s) := by
  cases i with
  | ret =>
    have hs : s.stack ≠ [] := fun hs => by simp [expectedFault, hs] at h
    rw [effect, List.getLast?_eq_some_getLast hs]
    exact execRet_append (List.dropLast_concat_getLast hs).symm
  | jp nnn =>
    have heven : nnn.toNat % 2 ≠ 1 := fun hodd => by simp [expectedFault, hodd] at h
    exact execJp_even s (by omega)
  | call nnn =>
    rw [expectedFault] at h
    split_ifs at h with hodd hfull
    exact execCall_ok (by omega) hfull
  | drw x y n =>
    rw [expectedFault] at h
    split_ifs at h with hmem hgrid
    have hread := State.readFromI_zero_ok s (count := n.toNat) (by omega)
    have hdraw := s.draw_eq_drawRows (px := s.readV x) (py := s.readV y) (bytes := s.bytesFromI n.toNat)
      (by rw [State.length_bytesFromI]; omega)
    simp only [exec, execDrw, hread, hdraw, conclude_ok, effect]
  | skp x =>
    rw [expectedFault] at h
    split_ifs at h with hkey
    have hlt : (s.readV x).toNat < 16 := by omega
    rw [effect, Vector.getElem?_eq_getElem hlt]
    exact execSkp_ok hlt
  | sknp x =>
    rw [expectedFault] at h
    split_ifs at h with hkey
    have hlt : (s.readV x).toNat < 16 := by omega
    rw [effect, Vector.getElem?_eq_getElem hlt]
    exact execSknp_ok hlt
  | ldVMem x =>
    rw [expectedFault] at h
    split_ifs at h with hmem
    exact execLdVMem_ok (by omega)
  | cls | seImm | ldImm | addImm | ldReg | andReg | xorReg | addReg | sub | shr | ldI | ldVDt | ldDtV | addI => rfl

/-- Everything an instruction can answer: its effect, or the fault expected of it (R91, R228). -/
theorem exec_cases {i : Instr} {s t : State} (h : exec i s = .next t) :
    (expectedFault i s = none ∧ t = effect i s) ∨
      ∃ k, expectedFault i s = some k ∧ t = s.takeFault (some (encode i)) k := by
  cases hf : expectedFault i s with
  | none => exact .inl ⟨rfl, Host.Outcome.next.inj (h.symm.trans (exec_eq_effect hf))⟩
  | some k => exact .inr ⟨k, rfl, Host.Outcome.next.inj (h.symm.trans (exec_of_expectedFault_some hf))⟩

/-- Settles O11: the effect keeps the latch, and a fault is the only write of the instruction that takes it. -/
theorem everyInstructionAnswersANextState : Obligations.EveryInstructionAnswersANextState := by
  intro i s
  cases hf : expectedFault i s with
  | none =>
    obtain ⟨t, hexec, hlatch⟩ := exec_of_expectedFault_none hf
    exact ⟨t, hexec, fun _ => hlatch, nofun⟩
  | some k =>
    refine ⟨_, exec_of_expectedFault_some hf, nofun, fun k' hk => ?_⟩
    cases hk
    rfl

/-! ### The frame of an instruction -/

theorem onlyChanges_takeFault (s : State) (o : Option Word) (k : FaultKind) : OnlyChanges [.fault] s (s.takeFault o k) := by
  intro p hp
  cases p with
  | fault => simp at hp
  | _ => simp [Part.same]

/-- Without a fault, an instruction writes only the elements its rule names. -/
theorem effect_frame (i : Instr) (s : State) : OnlyChanges (writes i) s (effect i s) := by
  cases i with
  | cls => exact ((onlyChanges_fb s _).mono (by simp [writes])).trans ((onlyChanges_setPc _ _).mono (by simp [writes]))
  | ret => exact (onlyChanges_stack_setPc s _ _).mono (by simp [writes])
  | call nnn => exact (onlyChanges_stack_setPc s _ _).mono (by simp [writes])
  | jp nnn => exact onlyChanges_setPc s _
  | seImm | skp | sknp => exact onlyChanges_skipIf s _
  | ldImm x | addImm x | ldReg x | andReg x | xorReg x | ldVDt x =>
    exact (onlyChanges_writeV s x _).advance_registers.2
  | addReg x | sub x => exact ((onlyChanges_writeV s x _).trans (onlyChanges_writeFlag _ _)).advance_registers.2
  | shr x y =>
    exact (((onlyChanges_writeV s x _).trans (onlyChanges_writeV _ y _)).trans
      (onlyChanges_writeFlag _ _)).advance_registers.2
  | ldI | addI => exact (setI_advance_frame s _).2
  | drw => exact (fb_writeFlag_advance_frame s _ _).2.2
  | ldDtV => exact (timerSet_advance_frame s _).2
  | ldVMem => exact (onlyChanges_loadV s 0 _).advance_registers.2

/-- Settles O16: the effect's frame, or the fault's. -/
theorem instructionsWriteOnlyTheirElements : Obligations.InstructionsWriteOnlyTheirElements := by
  intro i s t h
  obtain ⟨hf, rfl⟩ | ⟨k, hf, rfl⟩ := exec_cases h
  · exact ⟨fun _ => effect_frame i s, fun hne => absurd hf hne⟩
  · exact ⟨fun hnone => absurd (hf.symm.trans hnone) (by simp), fun _ => onlyChanges_takeFault s _ k⟩

/-! ### Registers (R22) -/

/-- An instruction with no fault changes its destinations only. -/
theorem effect_readV {i : Instr} (s : State) {r : RegIdx} (h : ¬ destinations i r) :
    (effect i s).readV r = s.readV r := by
  cases i with
  | ldImm | addImm | ldReg | andReg | xorReg | ldVDt => exact State.readV_writeV_ne s _ h
  | addReg | sub =>
    obtain ⟨hx, hf⟩ := not_or.mp h
    exact (State.readV_writeFlag_ne _ _ hf).trans (State.readV_writeV_ne s _ hx)
  | shr x y =>
    obtain ⟨hx, hyf⟩ := not_or.mp h
    obtain ⟨hy, hf⟩ := not_or.mp hyf
    exact (State.readV_writeFlag_ne _ _ hf).trans ((State.readV_writeV_ne _ _ hy).trans (State.readV_writeV_ne s _ hx))
  | drw => exact State.readV_writeFlag_ne _ _ h
  | ldVMem x => exact s.readV_loadV_bytesFromI_of_le (Nat.lt_of_not_le h)
  | cls | ret | jp | call | seImm | ldI | skp | sknp | ldDtV | addI =>
    exact effect_frame _ s .v (by simp [writes]) r

/-- Settles O17: the effect leaves the other registers, and a fault leaves them all. -/
theorem otherRegistersAreUnchanged : Obligations.OtherRegistersAreUnchanged := by
  intro i s t r h hr
  obtain ⟨-, rfl⟩ | ⟨k, -, rfl⟩ := exec_cases h
  · exact effect_readV s hr
  · exact s.takeFault_readV _ k r

/-- Settles O18: a change of VF makes it a destination, and those that have it as one are listed. -/
theorem flagRegisterWriters : Obligations.FlagRegisterWriters := by
  intro i s t h hne
  have hdest : destinations i 0xF := by
    by_contra hnot
    exact hne (otherRegistersAreUnchanged i s t 0xF h hnot)
  cases i with
  | ldVMem x =>
    have hx : x = 0xF := BitVec.eq_of_toNat_eq (Nat.le_antisymm (Nat.le_of_lt_succ x.isLt) hdest)
    simp [hx]
  | ldImm x | addImm x | ldReg x | andReg x | xorReg x | ldVDt x =>
    obtain rfl : 0xF = x := hdest
    simp
  | addReg | sub | shr | drw => simp
  | cls | ret | jp | call | seImm | ldI | skp | sknp | ldDtV | addI => exact hdest.elim

/-! ### Memory (R50) -/

theorem effect_mem (i : Instr) (s : State) : (effect i s).mem = s.mem := by
  cases i with
  | seImm | skp | sknp => exact s.skipIf_mem _
  | ldVMem => rw [effect, State.advance_mem, State.loadV_frame]
  | _ => rfl

theorem exec_mem {i : Instr} {s t : State} (h : exec i s = .next t) : t.mem = s.mem := by
  obtain ⟨-, rfl⟩ | ⟨k, -, rfl⟩ := exec_cases h
  · exact effect_mem i s
  · rfl

/-- A step writes the latch at most, or it is an instruction's, fetched from memory (R89). -/
theorem step_latch_or_exec {s t : State} (h : step s = .next t) :
    (∃ f, t = { s with fault := f }) ∨ (s.pc.toNat + 1 < 4096 ∧ ∃ i, exec i s = .next t) := by
  rcases step_cases s with ⟨-, hs⟩ | ⟨-, -, hs⟩ | ⟨-, -, -, hs⟩ | ⟨-, -, -, hs⟩ | ⟨-, hpc, i, -, hs⟩
  · exact .inl ⟨s.fault, Host.Outcome.next.inj (h.symm.trans hs)⟩
  · exact .inl ⟨_, Host.Outcome.next.inj (h.symm.trans hs)⟩
  · exact .inl ⟨_, Host.Outcome.next.inj (h.symm.trans hs)⟩
  · exact .inl ⟨_, Host.Outcome.next.inj (h.symm.trans hs)⟩
  · exact .inr ⟨hpc, i, hs.symm.trans h⟩

theorem step_mem {s t : State} (h : step s = .next t) : t.mem = s.mem := by
  obtain ⟨f, rfl⟩ | ⟨-, i, hexec⟩ := step_latch_or_exec h
  · rfl
  · exact exec_mem hexec

/-- Settles O19: neither the latch nor an instruction writes memory. -/
theorem stepWritesNoMemory : Obligations.StepWritesNoMemory :=
  fun _ _ h => ⟨step_mem h, fun a => congrArg (·.read a) (step_mem h)⟩

/-! ### What an instruction observes (10_state.md section 5) -/

/-- An instruction that goes the same way after `f`, with the same effect up to `f`, does not see what `f` replaces. -/
theorem exec_comm {i : Instr} {s t : State} (f : State → State) (hfault : expectedFault i (f s) = expectedFault i s)
    (heffect : effect i (f s) = f (effect i s)) (htake : ∀ o k, (f s).takeFault o k = f (s.takeFault o k))
    (h : exec i s = .next t) : exec i (f s) = .next (f t) := by
  obtain ⟨hf, rfl⟩ | ⟨k, hf, rfl⟩ := exec_cases h
  · rw [exec_eq_effect (hfault.trans hf), heffect]
  · rw [exec_of_expectedFault_some (hfault.trans hf), htake]

/-- A load of registers commutes with what no register write sees. -/
theorem State.loadV_comm (f : State → State) (hf : ∀ s x b, (f s).writeV x b = f (s.writeV x b)) (s : State) (k : Nat)
    (bs : List Byte) : (f s).loadV k bs = f (s.loadV k bs) := by
  induction bs generalizing s k with
  | nil => rfl
  | cons b bs ih => rw [State.loadV, hf, ih, State.loadV]

/-- A skip commutes with what no write of `pc` sees. -/
theorem State.skipIf_comm (f : State → State) (hpc : ∀ s, (f s).pc = s.pc) (hf : ∀ s w, (f s).setPc w = f (s.setPc w))
    (s : State) (c : Bool) : (f s).skipIf c = f (s.skipIf c) := by
  cases c with
  | true =>
    change (f s).setPc ((f s).pc + 4) = f (s.setPc (s.pc + 4))
    rw [hpc, hf]
  | false =>
    change (f s).setPc ((f s).pc + 2) = f (s.setPc (s.pc + 2))
    rw [hpc, hf]

theorem effect_withKeys {i : Instr} (s : State) (ks : Vector Bool 16) (hskp : ∀ x, i ≠ .skp x)
    (hsknp : ∀ x, i ≠ .sknp x) : effect i { s with keys := ks } = { effect i s with keys := ks } := by
  cases i with
  | skp x => exact absurd rfl (hskp x)
  | sknp x => exact absurd rfl (hsknp x)
  | seImm => exact State.skipIf_comm (fun s => { s with keys := ks }) (fun _ => rfl) (fun _ _ => rfl) s _
  | ldVMem =>
    exact congrArg State.advance (State.loadV_comm (fun s => { s with keys := ks }) (fun _ _ _ => rfl) s 0 _)
  | _ => rfl

theorem effect_withTimer {i : Instr} (s : State) (b : Byte) (hget : ∀ x, i ≠ .ldVDt x) (hset : ∀ x, i ≠ .ldDtV x) :
    effect i { s with timer := b } = { effect i s with timer := b } := by
  cases i with
  | ldVDt x => exact absurd rfl (hget x)
  | ldDtV x => exact absurd rfl (hset x)
  | seImm | skp | sknp => exact State.skipIf_comm (fun s => { s with timer := b }) (fun _ => rfl) (fun _ _ => rfl) s _
  | ldVMem =>
    exact congrArg State.advance (State.loadV_comm (fun s => { s with timer := b }) (fun _ _ _ => rfl) s 0 _)
  | _ => rfl

theorem effect_withFb {i : Instr} (s : State) (f : Framebuffer) (hdrw : ∀ x y n, i ≠ .drw x y n) (hcls : i ≠ .cls) :
    effect i { s with fb := f } = { effect i s with fb := f } := by
  cases i with
  | drw x y n => exact absurd rfl (hdrw x y n)
  | cls => exact absurd rfl hcls
  | seImm | skp | sknp => exact State.skipIf_comm (fun s => { s with fb := f }) (fun _ => rfl) (fun _ _ => rfl) s _
  | ldVMem =>
    exact congrArg State.advance (State.loadV_comm (fun s => { s with fb := f }) (fun _ _ _ => rfl) s 0 _)
  | _ => rfl

/-- Settles O20: each device is passed through by the effect of every instruction that is not its own, and no fault's
condition reads one. -/
theorem devicesAreSeenOnlyByTheirInstructions : Obligations.DevicesAreSeenOnlyByTheirInstructions := by
  refine ⟨fun i s t ks hskp hsknp h => ?_, fun i s t b hget hset h => ?_, fun _ _ _ => rfl,
    fun i s t f hdrw hcls h => ?_, fun _ _ => rfl⟩
  · exact exec_comm (fun s => { s with keys := ks }) rfl (effect_withKeys s ks hskp hsknp) (fun _ _ => rfl) h
  · exact exec_comm (fun s => { s with timer := b }) rfl (effect_withTimer s b hget hset) (fun _ _ => rfl) h
  · exact exec_comm (fun s => { s with fb := f }) rfl (effect_withFb s f hdrw hcls) (fun _ _ => rfl) h

end Sys2Proof.Machine

/-! SUPPORT. The machine's invariant (spec/10_state.md R26, R27; spec/20_memory.md R57): reset meets it, and every instruction,
every step and every host transaction keeps it. -/

namespace Sys2Proof.Safety

open Sys2Proof.Machine

/-! ### Addresses (R26, R57) -/

theorem EvenUpTo.mono {top top' : Nat} {w : Word} (h : EvenUpTo top w) (htop : top ≤ top') : EvenUpTo top' w :=
  ⟨h.1, h.2.trans htop⟩

/-- Moving an even address on by an even number keeps it even, where the sum fits in 16 bits. -/
theorem EvenUpTo.add {top : Nat} {w : Word} (h : EvenUpTo top w) {k : Nat} (hk : k % 2 = 0) (hfits : top + k < 65536) :
    EvenUpTo (top + k) (w + BitVec.ofNat 16 k) := by
  obtain ⟨heven, htop⟩ := h
  have hsum : (w + BitVec.ofNat 16 k).toNat = w.toNat + k := by
    rw [BitVec.toNat_add, BitVec.toNat_ofNat]
    omega
  rw [EvenUpTo, hsum]
  omega

/-- An even target is an address of memory. -/
theorem evenUpTo_zext16 {nnn : Addr12} (h : nnn.toNat % 2 = 0) : EvenUpTo 0x1002 (zext16 nnn) := by
  have := nnn.isLt
  rw [EvenUpTo, toNat_zext16]
  omega

/-- From an address an instruction can be fetched from, `pc + 2` is at most 0x1000 and `pc + 4` at most 0x1002. -/
theorem evenUpTo_skipIf {s : State} (h : EvenUpTo 0xFFE s.pc) (c : Bool) : EvenUpTo 0x1002 (s.skipIf c).pc := by
  cases c with
  | true => exact h.add (k := 4) rfl (by decide)
  | false => exact (h.add (k := 2) rfl (by decide)).mono (by decide)

end Sys2Proof.Safety

namespace Sys2Proof.Machine

open Sys2Proof.Safety

/-! ### The invariant at reset -/

/-- Settles O12: each part at its reset value. -/
theorem resetMeetsTheInvariant : Obligations.ResetMeetsTheInvariant :=
  ⟨State.reset_mem_wf, Nat.zero_le _, nofun, by decide⟩

/-! ### Instructions and steps -/

/-- The stack of an instruction fetched from `pc`: only RET and CALL change it, and CALL only below full depth. -/
theorem effect_stack_inv {i : Instr} {s : State} (hs : StateInv s) (hpc : EvenUpTo 0xFFE s.pc)
    (hf : expectedFault i s = none) :
    (effect i s).stack.length ≤ Config.stackDepth ∧ ∀ w ∈ (effect i s).stack, EvenUpTo 0x1000 w := by
  obtain ⟨-, hdepth, hentries, -⟩ := hs
  cases i with
  | ret =>
    exact ⟨(List.dropLast_sublist s.stack).length_le.trans hdepth,
      fun w hw => hentries w (List.mem_of_mem_dropLast hw)⟩
  | call nnn =>
    rw [expectedFault] at hf
    split_ifs at hf with hodd hfull
    have hstack : (effect (.call nnn) s).stack = s.stack ++ [s.nextPc] := rfl
    rw [hstack, List.length_append, List.length_singleton]
    refine ⟨Nat.lt_of_le_of_ne hdepth hfull, fun w hw => ?_⟩
    rcases List.mem_append.mp hw with hold | hnew
    · exact hentries w hold
    · rw [List.mem_singleton.mp hnew]
      exact hpc.add (k := 2) rfl (by decide)
  | _ =>
    rw [effect_frame _ s .stack (by simp [writes])]
    exact ⟨hdepth, hentries⟩

/-- Where an instruction fetched from `pc` goes on: to an even target, a return address, or past itself. -/
theorem effect_pc_inv {i : Instr} {s : State} (hs : StateInv s) (hpc : EvenUpTo 0xFFE s.pc)
    (hf : expectedFault i s = none) : EvenUpTo 0x1002 (effect i s).pc := by
  cases i with
  | ret =>
    obtain ⟨-, -, hentries, -⟩ := hs
    have hne : s.stack ≠ [] := fun hempty => by simp [expectedFault, hempty] at hf
    rw [effect, List.getLast?_eq_some_getLast hne]
    exact (hentries _ (List.getLast_mem hne)).mono (by decide)
  | jp nnn =>
    have heven : nnn.toNat % 2 ≠ 1 := fun hodd => by simp [expectedFault, hodd] at hf
    exact evenUpTo_zext16 (by omega)
  | call nnn =>
    have heven : nnn.toNat % 2 ≠ 1 := fun hodd => by simp [expectedFault, hodd] at hf
    exact evenUpTo_zext16 (by omega)
  | seImm | skp | sknp => exact evenUpTo_skipIf hpc _
  | ldVMem =>
    rw [effect, State.advance_pc, State.loadV_frame]
    exact evenUpTo_skipIf hpc false
  | _ => exact evenUpTo_skipIf hpc false

theorem exec_inv {i : Instr} {s t : State} (hs : StateInv s) (hpc : EvenUpTo 0xFFE s.pc) (h : exec i s = .next t) :
    StateInv t := by
  obtain ⟨hf, rfl⟩ | ⟨k, -, rfl⟩ := exec_cases h
  · obtain ⟨hdepth, hentries⟩ := effect_stack_inv hs hpc hf
    exact ⟨(effect_mem i s).symm ▸ hs.1, hdepth, hentries, effect_pc_inv hs hpc hf⟩
  · exact hs

/-- Settles O13: a fault writes the latch only, and an instruction that was fetched keeps the invariant. -/
theorem stepKeepsTheInvariant : Obligations.StepKeepsTheInvariant := by
  intro s t hs h
  obtain ⟨f, rfl⟩ | ⟨hfetched, i, hexec⟩ := step_latch_or_exec h
  · exact hs
  · have ⟨_, _, _, heven, _⟩ := hs
    exact exec_inv hs ⟨heven, by omega⟩ hexec

/-! ### Host transactions (R240) -/

/-- A host-side write keeps the invariant where each state it can leave meets it. -/
theorem hostWrite_inv {u u' : Session} {w : Except FaultKind State} {r : Response} (hu : StateInv u.state)
    (hw : ∀ t, w = .ok t → StateInv t) (h : hostWrite u w = (u', r)) : StateInv u'.state := by
  cases w with
  | ok t =>
    cases h
    exact hw t rfl
  | error k =>
    cases h
    exact hu

/-- Memory in its canonical form, with the stack and `pc` as they were, keeps the invariant. -/
theorem StateInv.of_frame {parts : List Part} {s t : State} (hs : StateInv s) (hframe : OnlyChanges parts s t)
    (hmem : t.mem.wf) (hstack : Part.stack ∉ parts) (hpc : Part.pc ∉ parts) : StateInv t := by
  have hst : t.stack = s.stack := hframe .stack hstack
  have hp : t.pc = s.pc := hframe .pc hpc
  obtain ⟨-, hrest⟩ := hs
  rw [StateInv, hst, hp]
  exact ⟨hmem, hrest⟩

theorem memWrite_inv {s t : State} {a : Nat} {b : Byte} (hs : StateInv s) (h : s.memWrite a b = .ok t) : StateInv t :=
  StateInv.of_frame hs (onlyChanges_memWrite h) (State.memWrite_wf h hs.1) (by decide) (by decide)

theorem setPressed_inv {s t : State} {k : Byte} {b : Bool} (hs : StateInv s) (h : s.setPressed k b = .ok t) :
    StateInv t := by
  rw [State.setPressed_eq] at h
  split_ifs at h
  cases h
  exact hs

theorem tick_inv {s : State} (hs : StateInv s) : StateInv s.tick := by
  rw [State.tick_eq]
  exact hs

/-- Settles O14: `Reset` by O12, `Step` by O13, and the host's writes by the part each one changes. -/
theorem transactionsKeepTheInvariant : Obligations.TransactionsKeepTheInvariant := by
  intro t u u' r hu h
  cases t with
  | reset =>
    cases h
    exact resetMeetsTheInvariant
  | loadByte a b =>
    rw [transact] at h
    split at h
    · exact hostWrite_inv hu (fun _ => memWrite_inv hu) (Host.Outcome.next.inj h)
    · cases h
  | step =>
    rw [transact] at h
    split at h
    next s hs =>
      cases h
      exact stepKeepsTheInvariant u.state s hu hs
    all_goals cases h
  | tick =>
    cases h
    exact tick_inv hu
  | setPressed k b => exact hostWrite_inv hu (fun _ => setPressed_inv hu) (Host.Outcome.next.inj h)
  | readPixel | readFramebuffer | readStatus =>
    cases h
    exact hu

end Sys2Proof.Machine

/-! SUPPORT. Two instructions in a row (spec/95_test_vectors.md part 1, S5 and S6): a call and the return from it, and a sprite
drawn twice. -/

namespace Sys2Proof.Safety

open Sys2Proof.Machine

/-- Settles O24: the return pops what the call pushed, so together they only move `pc` on. -/
theorem callThenRetComesBack : Obligations.CallThenRetComesBack := by
  intro s nnn heven hroom
  refine ⟨_, s.advance, execCall_ok heven (by omega), ?_, advancesBy_advance s, onlyChanges_setPc s _⟩
  exact execRet_append (rest := s.stack) (w := s.nextPc) rfl

/-- The sprite is where it was in a state with the same `I` and memory. -/
theorem spriteBit_congr {s t : State} (hi : t.i = s.i) (hmem : ∀ a, t.mem.read a = s.mem.read a)
    (px py n X Y : Nat) : spriteBit t px py n X Y = spriteBit s px py n X Y := by
  rw [spriteBit, spriteBit, hi, hmem]

/-- Whether a draw faults is decided by `I` and the two coordinates. -/
theorem expectedFault_drw_congr {x y : RegIdx} {s t : State} (n : Nibble) (hi : t.i = s.i)
    (hx : t.readV x = s.readV x) (hy : t.readV y = s.readV y) :
    expectedFault (.drw x y n) t = expectedFault (.drw x y n) s := by
  rw [expectedFault, expectedFault, hi, hx, hy]

/-- A draw that does not fault XORs the sprite into the display, pixel by pixel. -/
theorem pixel_exec_drw {x y : RegIdx} {n : Nibble} {s t : State} (hf : expectedFault (.drw x y n) s = none)
    (h : exec (.drw x y n) s = .next t) (X Y : Nat) :
    t.fb.pixel X Y = (s.fb.pixel X Y ^^ spriteBit s (s.readV x).toNat (s.readV y).toNat n.toNat X Y) := by
  rw [expectedFault] at hf
  split_ifs at hf with hmem hgrid
  obtain ⟨c, f, hexec, hpix, -⟩ := execDrw_xors (x := x) (y := y) (n := n) (s := s) (by omega)
  cases h.symm.trans hexec
  exact hpix X Y

/-- Settles O38: the first draw leaves `I`, memory and the coordinates, so the second XORs the same bits again. -/
theorem drawingTwiceRestoresTheDisplay : Obligations.DrawingTwiceRestoresTheDisplay := by
  intro x y n s t u hx hy hf hst htu X Y
  have hframe : OnlyChanges [.fb, .v, .pc] s t := (instructionsWriteOnlyTheirElements _ s t hst).1 hf
  have hi : t.i = s.i := hframe .i (by simp)
  have hmem : ∀ a, t.mem.read a = s.mem.read a := hframe .mem (by simp)
  have hvx : t.readV x = s.readV x := otherRegistersAreUnchanged _ s t x hst hx
  have hvy : t.readV y = s.readV y := otherRegistersAreUnchanged _ s t y hst hy
  have hft : expectedFault (.drw x y n) t = none := (expectedFault_drw_congr n hi hvx hvy).trans hf
  rw [pixel_exec_drw hft htu, hvx, hvy, spriteBit_congr hi hmem, pixel_exec_drw hf hst, Bool.xor_assoc, Bool.xor_self,
    Bool.xor_false]

end Sys2Proof.Safety

/-! SUPPORT. Loading, booting and the read ports (spec/20_memory.md R52; spec/60_exceptions.md R240;
spec/70_reset_and_hazards.md R262, R263): what one `LoadByte` does, what a whole image leaves in memory, and the statements about
them. -/

namespace Sys2Proof.Machine

open Sys2Proof.Safety

/-! ### One byte (R52) -/

theorem transact_loadByte_ok (s : State) {a : Nat} (b : Byte) (ha : a < Config.memSize) :
    transact (.loadByte a b) ⟨.loading, s⟩ = .next (⟨.loading, { s with mem := s.mem.write a b }⟩, .ok) := by
  simp only [transact, State.memWrite_eq, if_pos ha, hostWrite]

theorem transact_loadByte_failed (s : State) {a : Nat} (b : Byte) (ha : a ≥ Config.memSize) :
    transact (.loadByte a b) ⟨.loading, s⟩ = .next (⟨.loading, s⟩, .failed (.outOfBounds a)) := by
  simp only [transact, State.memWrite_eq, if_neg (Nat.not_lt.mpr ha), hostWrite]

/-- Settles O43: the two answers of `State.memWrite_eq`, and the read after the write. -/
theorem loadByteStoresOneByte : Obligations.LoadByteStoresOneByte := by
  refine ⟨fun s a b hwf ha => ⟨_, transact_loadByte_ok s b ha, ?_, fun c hc => ?_, onlyChanges_mem s _⟩,
    fun s _ b => transact_loadByte_failed s b, fun _ _ _ => rfl⟩
  · exact (Memory.read_write hwf.1 a a b).trans (if_pos rfl)
  · exact (Memory.read_write hwf.1 a c b).trans (if_neg hc)

/-! ### Read ports (R240) -/

theorem Framebuffer.pixel_eq_getElem (fb : Framebuffer) (x : Fin Config.dispW) (y : Fin Config.dispH) :
    fb.pixel x y = fb[y][x] := by
  rw [Framebuffer.pixel, dif_pos y.isLt, dif_pos x.isLt]
  rfl

/-- Settles O44: each port answers the part of the state it names. -/
theorem readPortsChangeNothing : Obligations.ReadPortsChangeNothing := by
  intro u
  refine ⟨fun x y => ?_, rfl, _, rfl, rfl, rfl, fun _ => rfl, rfl, rfl, rfl, rfl⟩
  rw [← Framebuffer.pixel_eq_getElem]
  rfl

/-! ### A whole image (R262, R263) -/

/-- What an image placed from address `a` upward makes of an address that read `old`. -/
def imageByte (a : Nat) (image : List Byte) (c : Nat) (old : Byte) : Byte :=
  if a ≤ c ∧ c < a + image.length then image.getD (c - a) 0 else old

/-- An image's first byte goes to its address, and the rest of it after that one. -/
theorem imageByte_cons (a : Nat) (b : Byte) (bs : List Byte) (c : Nat) (old : Byte) :
    imageByte a (b :: bs) c old = imageByte (a + 1) bs c (if c = a then b else old) := by
  simp only [imageByte, List.length_cons]
  rcases Nat.lt_trichotomy c a with hlt | rfl | hgt
  · rw [if_neg (by omega), if_neg (by omega), if_neg (by omega)]
  · rw [if_pos (by omega), if_neg (by omega), if_pos rfl, Nat.sub_self, List.getD_cons_zero]
  · rw [if_neg (show ¬ c = a by omega), show c - a = c - (a + 1) + 1 by omega, List.getD_cons_succ]
    exact if_congr (by omega) rfl rfl

/-- Loading an image that fits in memory places it, and changes nothing else. -/
theorem runTransactions_loadImage (image : List Byte) {a : Nat} {s : State} (hwf : s.mem.wf)
    (hfits : a + image.length ≤ Config.memSize) :
    ∃ t, runTransactions (loadImage a image) ⟨.loading, s⟩ = .next ⟨.loading, t⟩ ∧
      (∀ c, t.mem.read c = imageByte a image c (s.mem.read c)) ∧ OnlyChanges [.mem] s t := by
  induction image generalizing a s with
  | nil => exact ⟨s, rfl, fun c => (if_neg (by simp)).symm, .refl _ s⟩
  | cons b bs ih =>
    rw [List.length_cons] at hfits
    have ha : a < Config.memSize := by omega
    obtain ⟨t, hrun, hread, hframe⟩ := ih (a := a + 1) (s := { s with mem := s.mem.write a b })
      (Memory.write_wf a b ha hwf) (by omega)
    refine ⟨t, ?_, fun c => ?_, (onlyChanges_mem s _).trans hframe⟩
    · rw [loadImage, runTransactions_cons _ (transact_loadByte_ok s b ha), hrun]
    · rw [hread, Memory.read_write hwf.1, imageByte_cons]

/-- Booting is resetting and then loading, for an image that is not too long. -/
theorem boot_eq {image : List Byte} (u : Session) (h : image.length ≤ Config.maxImage) :
    boot image u = runTransactions (loadImage Config.progBase image) ⟨.loading, State.reset⟩ := by
  rw [boot, if_neg (Nat.not_lt.mpr h)]
  rfl

/-- With nothing loaded, the first step fetches 0x0000, which no row accepts. -/
theorem step_reset : step State.reset = .next { State.reset with fault := some ⟨.unknownOpcode, 0x200, some 0x0000⟩ } :=
  step_unknown rfl (by decide) (show decodeWord 0x0000 = .error (.unknownOpcode 0x0000) by decide)

/-- Settles O46: the reset memory with the image placed in it, and the step from reset for the empty image. -/
theorem bootPlacesTheImage : Obligations.BootPlacesTheImage := by
  refine ⟨fun image u hlen => ?_, fun _ _ hlong => if_pos hlong, fun _ => ⟨State.reset, rfl, step_reset⟩⟩
  rw [boot_eq u hlen]
  exact runTransactions_loadImage image State.reset_mem_wf (by simp only [Config.progBase, Config.memSize]; omega)

end Sys2Proof.Machine
